-- ==== Sys2Proof/Word.lean ====
section
/-! DEFINITION. The word type and the register index of the RV32I-subset core. -/

namespace Sys2Proof

/-- A register value, pc value, memory word, extended immediate or effective address: 32 bits
(00_scope.md R6, R11). -/
abbrev Word := BitVec 32

/-- A register index 0..31 (10_state.md R20); every value is legal in every position
(30_encoding.md R71). -/
abbrev RegIdx := Fin 32

end Sys2Proof
end

