-- ==== Sys2Proof/Machine/Fields.lean ====
section
/-! DEFINITION. The fields of an instruction word, the immediates the engine assembles from them
(30_encoding.md R61, R63 to R70), and the packing of the six formats. -/

namespace Sys2Proof

/-- opcode = w[6:0] (R61). -/
def opcode (w : Word) : BitVec 7 := w.extractLsb' 0 7

/-- rd = w[11:7] (R61, R71). -/
def rdField (w : Word) : RegIdx := (w.extractLsb' 7 5).toFin

/-- funct3 = w[14:12] (R61). -/
def funct3 (w : Word) : BitVec 3 := w.extractLsb' 12 3

/-- rs1 = w[19:15] (R61, R71). -/
def rs1Field (w : Word) : RegIdx := (w.extractLsb' 15 5).toFin

/-- rs2 = w[24:20] (R61, R71). -/
def rs2Field (w : Word) : RegIdx := (w.extractLsb' 20 5).toFin

/-- The bits w[24:20] where they stand for a shift amount (R136 to R138). -/
def shamtField (w : Word) : BitVec 5 := w.extractLsb' 20 5

/-- funct7 = w[31:25] (R61). -/
def funct7 (w : Word) : BitVec 7 := w.extractLsb' 25 7

/-- The I-type immediate before extension, w[31:20] (R66). -/
def immI (w : Word) : BitVec 12 := w.extractLsb' 20 12

/-- The S-type immediate before extension (R67). -/
def immS (w : Word) : BitVec 12 := w.extractLsb' 25 7 ++ w.extractLsb' 7 5

/-- The B-type immediate before extension, with the canonical scramble (R68). -/
def immB (w : Word) : BitVec 13 :=
  w.extractLsb' 31 1 ++ w.extractLsb' 7 1 ++ w.extractLsb' 25 6 ++ w.extractLsb' 8 4 ++ 0#1

/-- The bits w[31:12] of a U-type word (R69). -/
def immU (w : Word) : BitVec 20 := w.extractLsb' 12 20

/-- The J-type immediate before extension (R70). -/
def immJ (w : Word) : BitVec 21 :=
  w.extractLsb' 31 1 ++ w.extractLsb' 12 8 ++ w.extractLsb' 20 1 ++ w.extractLsb' 21 10 ++ 0#1

/-- The 5 bits of a register index. -/
def regBits (r : RegIdx) : BitVec 5 := BitVec.ofFin r

/-- The R-type layout (R61, R63). -/
def packR (f7 : BitVec 7) (rs2 rs1 : RegIdx) (f3 : BitVec 3) (rd : RegIdx) (op : BitVec 7) : Word :=
  f7 ++ regBits rs2 ++ regBits rs1 ++ f3 ++ regBits rd ++ op

/-- The I-type layout (R63). -/
def packI (imm : BitVec 12) (rs1 : RegIdx) (f3 : BitVec 3) (rd : RegIdx) (op : BitVec 7) : Word :=
  imm ++ regBits rs1 ++ f3 ++ regBits rd ++ op

/-- The I-type layout of the shift-immediates: w[31:25] and w[24:20] apart (R136 to R138). -/
def packShift (f7 : BitVec 7) (shamt : BitVec 5) (rs1 : RegIdx) (f3 : BitVec 3) (rd : RegIdx)
    (op : BitVec 7) : Word :=
  f7 ++ shamt ++ regBits rs1 ++ f3 ++ regBits rd ++ op

/-- The S-type layout (R64). -/
def packS (imm : BitVec 12) (rs2 rs1 : RegIdx) (f3 : BitVec 3) (op : BitVec 7) : Word :=
  imm.extractLsb' 5 7 ++ regBits rs2 ++ regBits rs1 ++ f3 ++ imm.extractLsb' 0 5 ++ op

/-- The B-type layout the engine decodes (R64, R68); bit 0 of the offset has no place in it. -/
def packB (off : BitVec 13) (rs2 rs1 : RegIdx) (f3 : BitVec 3) (op : BitVec 7) : Word :=
  off.extractLsb' 12 1 ++ off.extractLsb' 5 6 ++ regBits rs2 ++ regBits rs1 ++ f3 ++
    off.extractLsb' 1 4 ++ off.extractLsb' 11 1 ++ op

/-- The U-type layout (R65). -/
def packU (imm : BitVec 20) (rd : RegIdx) (op : BitVec 7) : Word :=
  imm ++ regBits rd ++ op

/-- The J-type layout (R65); bit 0 of the offset has no place in it. -/
def packJ (off : BitVec 21) (rd : RegIdx) (op : BitVec 7) : Word :=
  off.extractLsb' 20 1 ++ off.extractLsb' 1 10 ++ off.extractLsb' 11 1 ++ off.extractLsb' 12 8 ++
    regBits rd ++ op

/-- The nine opcodes of R62. -/
def isCoreOpcode (op : BitVec 7) : Bool :=
  op == 0x37#7 || op == 0x17#7 || op == 0x6F#7 || op == 0x67#7 || op == 0x63#7 ||
    op == 0x03#7 || op == 0x23#7 || op == 0x13#7 || op == 0x33#7

/-- The BRANCH funct3 values that select an operation (R73). -/
def isBranchFunct3 (f3 : BitVec 3) : Bool := !(f3 == 0b010#3 || f3 == 0b011#3)

/-- The LOAD funct3 values that select an operation (R73). -/
def isLoadFunct3 (f3 : BitVec 3) : Bool := !(f3 == 0b011#3 || f3 == 0b110#3 || f3 == 0b111#3)

/-- The STORE funct3 values that select an operation (R73). -/
def isStoreFunct3 (f3 : BitVec 3) : Bool := f3 == 0b000#3 || f3 == 0b001#3 || f3 == 0b010#3

end Sys2Proof
end

