-- ==== Sys2Proof/Syntax.lean ====
section
/-! DEFINITION. The instructions: one constructor per row of spec/opcode_table.json, in the table's
order. Immediates are kept at their encoded width, before extension. The bits a row does not examine
(30_encoding.md R75) are kept as fields, so that decoding drops no bit. A row of fatal words keeps the
whole word. -/

namespace Sys2Proof

/-- An instruction of the opcode table (30_encoding.md R72, R97). -/
inductive Instr where
  /-- HALT (R154). -/
  | halt
  /-- LUI rd, imm (R100); imm is w[31:12]. -/
  | lui (rd : RegIdx) (imm : BitVec 20)
  /-- AUIPC rd, imm (R101); imm is w[31:12]. -/
  | auipc (rd : RegIdx) (imm : BitVec 20)
  /-- JAL rd, off (R105); off is the 21-bit offset before extension. -/
  | jal (rd : RegIdx) (off : BitVec 21)
  /-- JALR rd, off(rs1) (R106); rs1 is decoded and never read. -/
  | jalr (rd rs1 : RegIdx) (off : BitVec 12)
  /-- JALR opcode with funct3 other than 000 (R106, R76). -/
  | fatalJalrFunct3 (w : Word)
  /-- BEQ rs1, rs2, off (R108); off is the 13-bit offset before extension. -/
  | beq (rs1 rs2 : RegIdx) (off : BitVec 13)
  /-- BNE (R109). -/
  | bne (rs1 rs2 : RegIdx) (off : BitVec 13)
  /-- BLT (R110). -/
  | blt (rs1 rs2 : RegIdx) (off : BitVec 13)
  /-- BGE (R111). -/
  | bge (rs1 rs2 : RegIdx) (off : BitVec 13)
  /-- BLTU (R112). -/
  | bltu (rs1 rs2 : RegIdx) (off : BitVec 13)
  /-- BGEU (R113). -/
  | bgeu (rs1 rs2 : RegIdx) (off : BitVec 13)
  /-- BRANCH opcode with funct3 010 or 011 (R114). -/
  | fatalBranchFunct3 (w : Word)
  /-- LB rd, off(rs1) (R117). -/
  | lb (rd rs1 : RegIdx) (off : BitVec 12)
  /-- LH (R118). -/
  | lh (rd rs1 : RegIdx) (off : BitVec 12)
  /-- LW (R119). -/
  | lw (rd rs1 : RegIdx) (off : BitVec 12)
  /-- LBU (R120). -/
  | lbu (rd rs1 : RegIdx) (off : BitVec 12)
  /-- LHU (R121). -/
  | lhu (rd rs1 : RegIdx) (off : BitVec 12)
  /-- LOAD opcode with funct3 011, 110 or 111 (R122). -/
  | fatalLoadFunct3 (w : Word)
  /-- SB rs2, off(rs1) (R124). -/
  | sb (rs1 rs2 : RegIdx) (off : BitVec 12)
  /-- SH (R125). -/
  | sh (rs1 rs2 : RegIdx) (off : BitVec 12)
  /-- SW (R126). -/
  | sw (rs1 rs2 : RegIdx) (off : BitVec 12)
  /-- STORE opcode with funct3 011..111 (R127). -/
  | fatalStoreFunct3 (w : Word)
  /-- ADDI rd, rs1, imm (R129). -/
  | addi (rd rs1 : RegIdx) (imm : BitVec 12)
  /-- SLTI (R130). -/
  | slti (rd rs1 : RegIdx) (imm : BitVec 12)
  /-- SLTIU (R131). -/
  | sltiu (rd rs1 : RegIdx) (imm : BitVec 12)
  /-- XORI (R132). -/
  | xori (rd rs1 : RegIdx) (imm : BitVec 12)
  /-- ORI (R133). -/
  | ori (rd rs1 : RegIdx) (imm : BitVec 12)
  /-- ANDI (R134). -/
  | andi (rd rs1 : RegIdx) (imm : BitVec 12)
  /-- SLLI (R136), a no-op; imm is w[31:20], not examined. -/
  | slli (rd rs1 : RegIdx) (imm : BitVec 12)
  /-- SRLI (R137), a no-op; shamt is w[24:20]. -/
  | srli (rd rs1 : RegIdx) (shamt : BitVec 5)
  /-- SRAI (R138), a no-op. -/
  | srai (rd rs1 : RegIdx) (shamt : BitVec 5)
  /-- SRxI (R138): OP-IMM funct3 101 with any other w[31:25], the same no-op. -/
  | srxi (rd rs1 : RegIdx) (shamt : BitVec 5) (funct7 : BitVec 7)
  /-- ADD rd, rs1, rs2 (R141). -/
  | add (rd rs1 rs2 : RegIdx)
  /-- SUB (R142). -/
  | sub (rd rs1 rs2 : RegIdx)
  /-- OP funct3 000 with funct7 other than 0x00 and 0x20 (R143). -/
  | fatalOpFunct7 (w : Word)
  /-- SLL (R144); funct7 is not examined. -/
  | sll (rd rs1 rs2 : RegIdx) (funct7 : BitVec 7)
  /-- SLT (R145); funct7 is not examined. -/
  | slt (rd rs1 rs2 : RegIdx) (funct7 : BitVec 7)
  /-- SLTU (R146); funct7 is not examined. -/
  | sltu (rd rs1 rs2 : RegIdx) (funct7 : BitVec 7)
  /-- OP funct3 100, the RV32I XOR encoding (R147). -/
  | fatalOpXor (w : Word)
  /-- SRL (R149). -/
  | srl (rd rs1 rs2 : RegIdx)
  /-- SRA (R150): any funct7 other than 0000000. -/
  | sra (rd rs1 rs2 : RegIdx) (funct7 : BitVec 7)
  /-- OR (R151); funct7 is not examined. -/
  | or (rd rs1 rs2 : RegIdx) (funct7 : BitVec 7)
  /-- AND (R152); funct7 is not examined. -/
  | and (rd rs1 rs2 : RegIdx) (funct7 : BitVec 7)
  /-- Opcode 0001111: FENCE, FENCE.I (R156). -/
  | fatalMiscMem (w : Word)
  /-- Opcode 1110011: ECALL, EBREAK, CSR instructions (R157). -/
  | fatalSystem (w : Word)
  /-- Every other non-zero word whose opcode is none of the nine (R158). -/
  | fatalInvalidOpcode (w : Word)
  deriving DecidableEq, Repr

end Sys2Proof
end

