-- ==== Sys2Proof/WellFormed.lean ====
section
/-! DEFINITION. Which terms of Instr stand for a word: what the field types do not say already. Jump
and branch offsets are even (30_encoding.md R68, R70); a row's funct7 lies in its row; a row of fatal
words holds a word of that row (R76, R97). -/

namespace Sys2Proof

/-- The term is the instruction of some word. -/
def Instr.wellFormed : Instr → Bool
  | .halt => true
  | .lui _ _ => true
  | .auipc _ _ => true
  | .jal _ off => !off.getLsbD 0
  | .jalr _ _ _ => true
  | .fatalJalrFunct3 w => opcode w == 0x67#7 && funct3 w != 0b000#3
  | .beq _ _ off => !off.getLsbD 0
  | .bne _ _ off => !off.getLsbD 0
  | .blt _ _ off => !off.getLsbD 0
  | .bge _ _ off => !off.getLsbD 0
  | .bltu _ _ off => !off.getLsbD 0
  | .bgeu _ _ off => !off.getLsbD 0
  | .fatalBranchFunct3 w => opcode w == 0x63#7 && !isBranchFunct3 (funct3 w)
  | .lb _ _ _ => true
  | .lh _ _ _ => true
  | .lw _ _ _ => true
  | .lbu _ _ _ => true
  | .lhu _ _ _ => true
  | .fatalLoadFunct3 w => opcode w == 0x03#7 && !isLoadFunct3 (funct3 w)
  | .sb _ _ _ => true
  | .sh _ _ _ => true
  | .sw _ _ _ => true
  | .fatalStoreFunct3 w => opcode w == 0x23#7 && !isStoreFunct3 (funct3 w)
  | .addi _ _ _ => true
  | .slti _ _ _ => true
  | .sltiu _ _ _ => true
  | .xori _ _ _ => true
  | .ori _ _ _ => true
  | .andi _ _ _ => true
  | .slli _ _ _ => true
  | .srli _ _ _ => true
  | .srai _ _ _ => true
  | .srxi _ _ _ f7 => f7 != 0x00#7 && f7 != 0x20#7
  | .add _ _ _ => true
  | .sub _ _ _ => true
  | .fatalOpFunct7 w =>
    opcode w == 0x33#7 && funct3 w == 0b000#3 && funct7 w != 0x00#7 && funct7 w != 0x20#7
  | .sll _ _ _ _ => true
  | .slt _ _ _ _ => true
  | .sltu _ _ _ _ => true
  | .fatalOpXor w => opcode w == 0x33#7 && funct3 w == 0b100#3
  | .srl _ _ _ => true
  | .sra _ _ _ f7 => f7 != 0x00#7
  | .or _ _ _ _ => true
  | .and _ _ _ _ => true
  | .fatalMiscMem w => opcode w == 0x0F#7
  | .fatalSystem w => opcode w == 0x73#7
  | .fatalInvalidOpcode w =>
    w != 0#32 && !isCoreOpcode (opcode w) && opcode w != 0x0F#7 && opcode w != 0x73#7

end Sys2Proof
end

