-- ==== Sys2Proof/Decode.lean ====
section
/-! DEFINITION. The decoder, total on all words and rejecting by name (the FATAL rows), the encoder,
and the opcode table in first-match order (30_encoding.md R72 to R80, R97). -/

namespace Sys2Proof

/-- BRANCH by funct3 (R72, R73, R114). -/
def decodeBranch (w : Word) : Instr :=
  if funct3 w = 0b000#3 then .beq (rs1Field w) (rs2Field w) (immB w)
  else if funct3 w = 0b001#3 then .bne (rs1Field w) (rs2Field w) (immB w)
  else if funct3 w = 0b100#3 then .blt (rs1Field w) (rs2Field w) (immB w)
  else if funct3 w = 0b101#3 then .bge (rs1Field w) (rs2Field w) (immB w)
  else if funct3 w = 0b110#3 then .bltu (rs1Field w) (rs2Field w) (immB w)
  else if funct3 w = 0b111#3 then .bgeu (rs1Field w) (rs2Field w) (immB w)
  else .fatalBranchFunct3 w

/-- LOAD by funct3 (R72, R73, R122). -/
def decodeLoad (w : Word) : Instr :=
  if funct3 w = 0b000#3 then .lb (rdField w) (rs1Field w) (immI w)
  else if funct3 w = 0b001#3 then .lh (rdField w) (rs1Field w) (immI w)
  else if funct3 w = 0b010#3 then .lw (rdField w) (rs1Field w) (immI w)
  else if funct3 w = 0b100#3 then .lbu (rdField w) (rs1Field w) (immI w)
  else if funct3 w = 0b101#3 then .lhu (rdField w) (rs1Field w) (immI w)
  else .fatalLoadFunct3 w

/-- STORE by funct3 (R72, R73, R127). -/
def decodeStore (w : Word) : Instr :=
  if funct3 w = 0b000#3 then .sb (rs1Field w) (rs2Field w) (immS w)
  else if funct3 w = 0b001#3 then .sh (rs1Field w) (rs2Field w) (immS w)
  else if funct3 w = 0b010#3 then .sw (rs1Field w) (rs2Field w) (immS w)
  else .fatalStoreFunct3 w

/-- OP-IMM funct3 101 by funct7; the three rows are the same no-op (R72, R138). -/
def decodeShiftRightImm (w : Word) : Instr :=
  if funct7 w = 0x00#7 then .srli (rdField w) (rs1Field w) (shamtField w)
  else if funct7 w = 0x20#7 then .srai (rdField w) (rs1Field w) (shamtField w)
  else .srxi (rdField w) (rs1Field w) (shamtField w) (funct7 w)

/-- OP-IMM by funct3; no word of this opcode is fatal (R72, R73, R139). -/
def decodeOpImm (w : Word) : Instr :=
  if funct3 w = 0b000#3 then .addi (rdField w) (rs1Field w) (immI w)
  else if funct3 w = 0b010#3 then .slti (rdField w) (rs1Field w) (immI w)
  else if funct3 w = 0b011#3 then .sltiu (rdField w) (rs1Field w) (immI w)
  else if funct3 w = 0b100#3 then .xori (rdField w) (rs1Field w) (immI w)
  else if funct3 w = 0b110#3 then .ori (rdField w) (rs1Field w) (immI w)
  else if funct3 w = 0b111#3 then .andi (rdField w) (rs1Field w) (immI w)
  else if funct3 w = 0b001#3 then .slli (rdField w) (rs1Field w) (immI w)
  else decodeShiftRightImm w

/-- OP funct3 000 by funct7 (R72, R74, R143). -/
def decodeAddSub (w : Word) : Instr :=
  if funct7 w = 0x00#7 then .add (rdField w) (rs1Field w) (rs2Field w)
  else if funct7 w = 0x20#7 then .sub (rdField w) (rs1Field w) (rs2Field w)
  else .fatalOpFunct7 w

/-- OP by funct3, with funct7 examined for funct3 000 and 101 only (R72, R73, R74, R147). -/
def decodeOp (w : Word) : Instr :=
  if funct3 w = 0b000#3 then decodeAddSub w
  else if funct3 w = 0b001#3 then .sll (rdField w) (rs1Field w) (rs2Field w) (funct7 w)
  else if funct3 w = 0b010#3 then .slt (rdField w) (rs1Field w) (rs2Field w) (funct7 w)
  else if funct3 w = 0b011#3 then .sltu (rdField w) (rs1Field w) (rs2Field w) (funct7 w)
  else if funct3 w = 0b100#3 then .fatalOpXor w
  else if funct3 w = 0b110#3 then .or (rdField w) (rs1Field w) (rs2Field w) (funct7 w)
  else if funct3 w = 0b111#3 then .and (rdField w) (rs1Field w) (rs2Field w) (funct7 w)
  else if funct7 w = 0x00#7 then .srl (rdField w) (rs1Field w) (rs2Field w)
  else .sra (rdField w) (rs1Field w) (rs2Field w) (funct7 w)

/-- The decoder (R72): the zero test, then the opcode, then funct3, then funct7. Total on all 2^32
words; a word the block does not execute decodes to a row named FATAL. -/
def decode (w : Word) : Instr :=
  if w = 0#32 then .halt
  else if opcode w = 0x37#7 then .lui (rdField w) (immU w)
  else if opcode w = 0x17#7 then .auipc (rdField w) (immU w)
  else if opcode w = 0x6F#7 then .jal (rdField w) (immJ w)
  else if opcode w = 0x67#7 then
    if funct3 w = 0b000#3 then .jalr (rdField w) (rs1Field w) (immI w) else .fatalJalrFunct3 w
  else if opcode w = 0x63#7 then decodeBranch w
  else if opcode w = 0x03#7 then decodeLoad w
  else if opcode w = 0x23#7 then decodeStore w
  else if opcode w = 0x13#7 then decodeOpImm w
  else if opcode w = 0x33#7 then decodeOp w
  else if opcode w = 0x0F#7 then .fatalMiscMem w
  else if opcode w = 0x73#7 then .fatalSystem w
  else .fatalInvalidOpcode w

/-- The encoder: the word of an instruction, from the layouts of R63 to R65 and the values of R62,
R73 and R74. Branches are packed as the engine decodes them, not as the assembler packs them (R90). -/
def encode : Instr → Word
  | .halt => 0#32
  | .lui rd imm => packU imm rd 0x37#7
  | .auipc rd imm => packU imm rd 0x17#7
  | .jal rd off => packJ off rd 0x6F#7
  | .jalr rd rs1 off => packI off rs1 0b000#3 rd 0x67#7
  | .fatalJalrFunct3 w => w
  | .beq rs1 rs2 off => packB off rs2 rs1 0b000#3 0x63#7
  | .bne rs1 rs2 off => packB off rs2 rs1 0b001#3 0x63#7
  | .blt rs1 rs2 off => packB off rs2 rs1 0b100#3 0x63#7
  | .bge rs1 rs2 off => packB off rs2 rs1 0b101#3 0x63#7
  | .bltu rs1 rs2 off => packB off rs2 rs1 0b110#3 0x63#7
  | .bgeu rs1 rs2 off => packB off rs2 rs1 0b111#3 0x63#7
  | .fatalBranchFunct3 w => w
  | .lb rd rs1 off => packI off rs1 0b000#3 rd 0x03#7
  | .lh rd rs1 off => packI off rs1 0b001#3 rd 0x03#7
  | .lw rd rs1 off => packI off rs1 0b010#3 rd 0x03#7
  | .lbu rd rs1 off => packI off rs1 0b100#3 rd 0x03#7
  | .lhu rd rs1 off => packI off rs1 0b101#3 rd 0x03#7
  | .fatalLoadFunct3 w => w
  | .sb rs1 rs2 off => packS off rs2 rs1 0b000#3 0x23#7
  | .sh rs1 rs2 off => packS off rs2 rs1 0b001#3 0x23#7
  | .sw rs1 rs2 off => packS off rs2 rs1 0b010#3 0x23#7
  | .fatalStoreFunct3 w => w
  | .addi rd rs1 imm => packI imm rs1 0b000#3 rd 0x13#7
  | .slti rd rs1 imm => packI imm rs1 0b010#3 rd 0x13#7
  | .sltiu rd rs1 imm => packI imm rs1 0b011#3 rd 0x13#7
  | .xori rd rs1 imm => packI imm rs1 0b100#3 rd 0x13#7
  | .ori rd rs1 imm => packI imm rs1 0b110#3 rd 0x13#7
  | .andi rd rs1 imm => packI imm rs1 0b111#3 rd 0x13#7
  | .slli rd rs1 imm => packI imm rs1 0b001#3 rd 0x13#7
  | .srli rd rs1 shamt => packShift 0x00#7 shamt rs1 0b101#3 rd 0x13#7
  | .srai rd rs1 shamt => packShift 0x20#7 shamt rs1 0b101#3 rd 0x13#7
  | .srxi rd rs1 shamt f7 => packShift f7 shamt rs1 0b101#3 rd 0x13#7
  | .add rd rs1 rs2 => packR 0x00#7 rs2 rs1 0b000#3 rd 0x33#7
  | .sub rd rs1 rs2 => packR 0x20#7 rs2 rs1 0b000#3 rd 0x33#7
  | .fatalOpFunct7 w => w
  | .sll rd rs1 rs2 f7 => packR f7 rs2 rs1 0b001#3 rd 0x33#7
  | .slt rd rs1 rs2 f7 => packR f7 rs2 rs1 0b010#3 rd 0x33#7
  | .sltu rd rs1 rs2 f7 => packR f7 rs2 rs1 0b011#3 rd 0x33#7
  | .fatalOpXor w => w
  | .srl rd rs1 rs2 => packR 0x00#7 rs2 rs1 0b101#3 rd 0x33#7
  | .sra rd rs1 rs2 f7 => packR f7 rs2 rs1 0b101#3 rd 0x33#7
  | .or rd rs1 rs2 f7 => packR f7 rs2 rs1 0b110#3 rd 0x33#7
  | .and rd rs1 rs2 f7 => packR f7 rs2 rs1 0b111#3 rd 0x33#7
  | .fatalMiscMem w => w
  | .fatalSystem w => w
  | .fatalInvalidOpcode w => w

/-- The instruction the decoder reads from a table word of nbits bits (all higher bits 0). Every
instruction is one word of 32 bits (R60), so no table word is longer, and none is refused. -/
def decodeTableWord (nbits w : Nat) : Option Instr :=
  if nbits ≤ 32 ∧ w < 2 ^ nbits then some (decode (BitVec.ofNat 32 w)) else none

/-- The row's name in spec/opcode_table.json. -/
def Instr.mnemonic : Instr → String
  | .halt => "HALT"
  | .lui _ _ => "LUI"
  | .auipc _ _ => "AUIPC"
  | .jal _ _ => "JAL"
  | .jalr _ _ _ => "JALR"
  | .fatalJalrFunct3 _ => "FATAL_JALR_FUNCT3"
  | .beq _ _ _ => "BEQ"
  | .bne _ _ _ => "BNE"
  | .blt _ _ _ => "BLT"
  | .bge _ _ _ => "BGE"
  | .bltu _ _ _ => "BLTU"
  | .bgeu _ _ _ => "BGEU"
  | .fatalBranchFunct3 _ => "FATAL_BRANCH_FUNCT3"
  | .lb _ _ _ => "LB"
  | .lh _ _ _ => "LH"
  | .lw _ _ _ => "LW"
  | .lbu _ _ _ => "LBU"
  | .lhu _ _ _ => "LHU"
  | .fatalLoadFunct3 _ => "FATAL_LOAD_FUNCT3"
  | .sb _ _ _ => "SB"
  | .sh _ _ _ => "SH"
  | .sw _ _ _ => "SW"
  | .fatalStoreFunct3 _ => "FATAL_STORE_FUNCT3"
  | .addi _ _ _ => "ADDI"
  | .slti _ _ _ => "SLTI"
  | .sltiu _ _ _ => "SLTIU"
  | .xori _ _ _ => "XORI"
  | .ori _ _ _ => "ORI"
  | .andi _ _ _ => "ANDI"
  | .slli _ _ _ => "SLLI"
  | .srli _ _ _ => "SRLI"
  | .srai _ _ _ => "SRAI"
  | .srxi _ _ _ _ => "SRxI"
  | .add _ _ _ => "ADD"
  | .sub _ _ _ => "SUB"
  | .fatalOpFunct7 _ => "FATAL_OP_FUNCT7"
  | .sll _ _ _ _ => "SLL"
  | .slt _ _ _ _ => "SLT"
  | .sltu _ _ _ _ => "SLTU"
  | .fatalOpXor _ => "FATAL_OP_XOR"
  | .srl _ _ _ => "SRL"
  | .sra _ _ _ _ => "SRA"
  | .or _ _ _ _ => "OR"
  | .and _ _ _ _ => "AND"
  | .fatalMiscMem _ => "FATAL_MISC_MEM"
  | .fatalSystem _ => "FATAL_SYSTEM"
  | .fatalInvalidOpcode _ => "FATAL_INVALID_OPCODE"

/-- One row of the machine-readable table (R97): a word w is the row's when w & mask = pattern and no
earlier row takes it. -/
structure OpcodeRow where
  name : String
  pattern : Word
  mask : Word
  deriving DecidableEq, Repr

/-- Rows of spec/opcode_table.json: the halt word, the U-type, J-type and JALR rows (R97). -/
def rowsHaltUpperJump : List OpcodeRow :=
  [⟨"HALT", 0x00000000#32, 0xFFFFFFFF#32⟩,
   ⟨"LUI", 0x00000037#32, 0x0000007F#32⟩,
   ⟨"AUIPC", 0x00000017#32, 0x0000007F#32⟩,
   ⟨"JAL", 0x0000006F#32, 0x0000007F#32⟩,
   ⟨"JALR", 0x00000067#32, 0x0000707F#32⟩,
   ⟨"FATAL_JALR_FUNCT3", 0x00000067#32, 0x0000007F#32⟩]

/-- Rows of spec/opcode_table.json: the BRANCH rows (R97). -/
def rowsBranch : List OpcodeRow :=
  [⟨"BEQ", 0x00000063#32, 0x0000707F#32⟩,
   ⟨"BNE", 0x00001063#32, 0x0000707F#32⟩,
   ⟨"BLT", 0x00004063#32, 0x0000707F#32⟩,
   ⟨"BGE", 0x00005063#32, 0x0000707F#32⟩,
   ⟨"BLTU", 0x00006063#32, 0x0000707F#32⟩,
   ⟨"BGEU", 0x00007063#32, 0x0000707F#32⟩,
   ⟨"FATAL_BRANCH_FUNCT3", 0x00000063#32, 0x0000007F#32⟩]

/-- Rows of spec/opcode_table.json: the LOAD and STORE rows (R97). -/
def rowsLoadStore : List OpcodeRow :=
  [⟨"LB", 0x00000003#32, 0x0000707F#32⟩,
   ⟨"LH", 0x00001003#32, 0x0000707F#32⟩,
   ⟨"LW", 0x00002003#32, 0x0000707F#32⟩,
   ⟨"LBU", 0x00004003#32, 0x0000707F#32⟩,
   ⟨"LHU", 0x00005003#32, 0x0000707F#32⟩,
   ⟨"FATAL_LOAD_FUNCT3", 0x00000003#32, 0x0000007F#32⟩,
   ⟨"SB", 0x00000023#32, 0x0000707F#32⟩,
   ⟨"SH", 0x00001023#32, 0x0000707F#32⟩,
   ⟨"SW", 0x00002023#32, 0x0000707F#32⟩,
   ⟨"FATAL_STORE_FUNCT3", 0x00000023#32, 0x0000007F#32⟩]

/-- Rows of spec/opcode_table.json: the OP-IMM rows (R97). -/
def rowsOpImm : List OpcodeRow :=
  [⟨"ADDI", 0x00000013#32, 0x0000707F#32⟩,
   ⟨"SLTI", 0x00002013#32, 0x0000707F#32⟩,
   ⟨"SLTIU", 0x00003013#32, 0x0000707F#32⟩,
   ⟨"XORI", 0x00004013#32, 0x0000707F#32⟩,
   ⟨"ORI", 0x00006013#32, 0x0000707F#32⟩,
   ⟨"ANDI", 0x00007013#32, 0x0000707F#32⟩,
   ⟨"SLLI", 0x00001013#32, 0x0000707F#32⟩,
   ⟨"SRLI", 0x00005013#32, 0xFE00707F#32⟩,
   ⟨"SRAI", 0x40005013#32, 0xFE00707F#32⟩,
   ⟨"SRxI", 0x00005013#32, 0x0000707F#32⟩]

/-- Rows of spec/opcode_table.json: the OP rows (R97). -/
def rowsOp : List OpcodeRow :=
  [⟨"ADD", 0x00000033#32, 0xFE00707F#32⟩,
   ⟨"SUB", 0x40000033#32, 0xFE00707F#32⟩,
   ⟨"FATAL_OP_FUNCT7", 0x00000033#32, 0x0000707F#32⟩,
   ⟨"SLL", 0x00001033#32, 0x0000707F#32⟩,
   ⟨"SLT", 0x00002033#32, 0x0000707F#32⟩,
   ⟨"SLTU", 0x00003033#32, 0x0000707F#32⟩,
   ⟨"FATAL_OP_XOR", 0x00004033#32, 0x0000707F#32⟩,
   ⟨"SRL", 0x00005033#32, 0xFE00707F#32⟩,
   ⟨"SRA", 0x00005033#32, 0x0000707F#32⟩,
   ⟨"OR", 0x00006033#32, 0x0000707F#32⟩,
   ⟨"AND", 0x00007033#32, 0x0000707F#32⟩]

/-- Rows of spec/opcode_table.json: the remaining words (R97). -/
def rowsInvalid : List OpcodeRow :=
  [⟨"FATAL_MISC_MEM", 0x0000000F#32, 0x0000007F#32⟩,
   ⟨"FATAL_SYSTEM", 0x00000073#32, 0x0000007F#32⟩,
   ⟨"FATAL_INVALID_OPCODE", 0x00000000#32, 0x00000000#32⟩]

/-- The table of R97 in first-match order. -/
def opcodeTable : List OpcodeRow :=
  rowsHaltUpperJump ++ rowsBranch ++ rowsLoadStore ++ rowsOpImm ++ rowsOp ++ rowsInvalid

/-- The first row that takes w (R97). -/
def firstMatch (w : Word) : Option OpcodeRow :=
  opcodeTable.find? (fun r => w &&& r.mask == r.pattern)

end Sys2Proof
end

