-- ==== Sys2Proof/Machine/Flags.lean ====
section
/-! DEFINITION. The block has no flags, condition codes or predicates (10_state.md R29). What takes
their place: the comparisons of the branches and of SLT and its kin (00_scope.md R11). -/

namespace Sys2Proof.Machine

/-- a = b. -/
def isEqual (a b : Word) : Bool := a == b

/-- a <s b: s(a) < s(b) (R11). -/
def isLessSigned (a b : Word) : Bool := decide (a.toInt < b.toInt)

/-- a <u b: u(a) < u(b) (R11). -/
def isLessUnsigned (a b : Word) : Bool := decide (a.toNat < b.toNat)

/-- The result of a set-if-less-than: 1 or 0 (43_alu_immediate.md R130, R131; 44_alu_register.md R145,
R146). -/
def boolWord (c : Bool) : Word := if c then 1#32 else 0#32

end Sys2Proof.Machine
end

