-- ==== Sys2Proof/Machine/Memory.lean ====
section
/-! DEFINITION. The word array M (10_state.md R32, 20_memory.md R40): a list of (word index, word)
pairs in one canonical form. The block has no byte view (R47), so the cell is the word. -/

namespace Sys2Proof.Machine

/-- The listed words of M, by word index; a word not listed reads as `Memory.unlisted`. -/
abbrev Memory := List (Nat × Word)

/-- What a word nothing has written reads as: INIT_MEM at its default (DESIGN CHOICE, log entry 5;
10_state.md R35, D21). -/
def Memory.unlisted : Word := 0#32

/-- The canonical form: indices strictly rising, no entry equal to what an unlisted word reads as. -/
abbrev Memory.wf (m : Memory) : Prop :=
  m.Pairwise (fun a b => a.1 < b.1) ∧ ∀ c ∈ m, c.2 ≠ Memory.unlisted

/-- Every listed word exists: its index is below the capacity (R32). -/
abbrev Memory.within (m : Memory) (memWords : Nat) : Prop := ∀ c ∈ m, c.1 < memWords

/-- The word M[idx]. -/
def Memory.read : Memory → Nat → Word
  | [], _ => Memory.unlisted
  | (k, x) :: rest, idx => if k = idx then x else Memory.read rest idx

/-- The array without an entry for idx. -/
def Memory.remove : Memory → Nat → Memory
  | [], _ => []
  | (k, x) :: rest, idx =>
    if k = idx then Memory.remove rest idx else (k, x) :: Memory.remove rest idx

/-- The array with an entry for idx put before the first larger index. -/
def Memory.insertCell : Memory → Nat → Word → Memory
  | [], idx, v => [(idx, v)]
  | (k, x) :: rest, idx, v =>
    if idx < k then (idx, v) :: (k, x) :: rest else (k, x) :: Memory.insertCell rest idx v

/-- M[idx] <- v, in canonical form: a word that becomes what an unlisted word reads as is not listed. -/
def Memory.write (m : Memory) (idx : Nat) (v : Word) : Memory :=
  if v = Memory.unlisted then m.remove idx else (m.remove idx).insertCell idx v

/-- M[off + k] <- words[k] for every k (70_reset_and_hazards.md R181). -/
def Memory.writeWords : Memory → Nat → List Word → Memory
  | m, _, [] => m
  | m, off, w :: rest => Memory.writeWords (m.write off w) (off + 1) rest

end Sys2Proof.Machine
end

