-- ==== Sys2Proof/Config.lean ====
section
/-! DEFINITION. The parameters the spec makes arguments of the model (00_scope.md R7, R8). -/

namespace Sys2Proof

/-- NEG_EA_POLICY: what a load or store does when EA[31] = 1 (20_memory.md R45). -/
inductive NegEaPolicy where
  /-- The access raises Fatal(DataAddressNegative) and has no effect. The spec's default (D5). -/
  | fatal
  /-- The access proceeds with index u(EA) mod MEM_WORDS. -/
  | unsignedMod32
  /-- The access proceeds with index (2^64 + s(EA)) mod MEM_WORDS. -/
  | signExtMod64
  deriving DecidableEq, Repr

/-- The parameters a running block depends on, fixed at its construction (00_scope.md R7, R8;
20_memory.md R58). -/
structure Params where
  /-- MEM_WORDS, the capacity in words; the spec wants it to be at least 1 (R7). -/
  memWords : Nat
  /-- NEG_EA_POLICY (R8, R45). -/
  negEaPolicy : NegEaPolicy
  /-- SRX_ADVANCES_PC (R8, R148). -/
  srxAdvancesPc : Bool
  deriving DecidableEq, Repr

/-- The parameters that act at construction only (00_scope.md R8, 10_state.md R35). -/
structure ResetParams where
  /-- PC_RESET. -/
  pcReset : Word
  /-- SP_RESET, the value of x2. -/
  spReset : Word
  /-- INIT_REGS: entry i is the value of x_i for i = 1 and i = 3..31; entries 0 and 2 play no part. -/
  initRegs : Vector Word 32
  /-- INIT_MEM: word k of the list is M[k]; words the list does not give are 0, and words past the
  capacity are dropped. -/
  initMem : List Word
  deriving DecidableEq, Repr

end Sys2Proof
end

