-- ==== Sys2Proof/Machine/Params.lean ====
section
/-! DEFINITION. The parameter values State.reset is built with: the spec's defaults, and a choice where
it gives none. -/

namespace Sys2Proof.Machine

/-- MEM_WORDS of State.reset: the spec gives no value and no default (00_scope.md R7, D3). DESIGN
CHOICE 64, the value of its test vectors (log entry 2). -/
def defaultMemWords : Nat := 64

/-- The running parameters of State.reset: NEG_EA_POLICY = Fatal and SRX_ADVANCES_PC = false are the
spec's defaults (00_scope.md R8, D5, D15; log entries 7 and 8). -/
def defaultParams : Params :=
  { memWords := defaultMemWords, negEaPolicy := .fatal, srxAdvancesPc := false }

/-- The spec's simulator default of SP_RESET: (4·MEM_WORDS − 4) mod 2^32 (00_scope.md R8, D19). DESIGN
CHOICE, since the spec leaves the value OPEN (log entry 3). -/
def defaultSp (memWords : Nat) : Word := BitVec.ofNat 32 (4 * memWords - 4)

/-- The construction parameters of State.reset: PC_RESET = 0 (D18, log entry 6), SP_RESET as above,
INIT_REGS all 0 (DESIGN CHOICE, D20, log entry 4) and INIT_MEM all 0 (DESIGN CHOICE, D21, log
entry 5). -/
def defaultResetParams : ResetParams :=
  { pcReset := 0#32
    spReset := defaultSp defaultMemWords
    initRegs := Vector.replicate 32 0#32
    initMem := [] }

end Sys2Proof.Machine
end

