-- ==== Sys2Proof/Machine/State.lean ====
section
/-! DEFINITION. The state of the block (10_state.md), its reasons to stop, and reset (R35, R180). -/

namespace Sys2Proof.Machine

/-- The fatal reasons (60_exceptions.md R160). -/
inductive FatalReason where
  /-- u(pc) div 4 ≥ MEM_WORDS at the fetch (R41). -/
  | fetchOutOfBounds
  /-- A non-zero word whose opcode is none of the nine (R158). -/
  | invalidOpcode
  /-- A funct3 with no operation (R106, R114, R122, R127, R147). -/
  | invalidFunct3
  /-- OP funct3 000 with funct7 other than 0x00 and 0x20 (R143). -/
  | invalidFunct7
  /-- EA[31] = 1 under NEG_EA_POLICY = Fatal (R45). -/
  | dataAddressNegative
  /-- A program load past the capacity (R182). -/
  | loadOutOfBounds
  deriving DecidableEq, Repr

/-- The run status (10_state.md R28). -/
inductive RunStatus where
  /-- The last step executed an instruction, or no step has run yet. -/
  | running
  /-- The last step fetched the all-zero word; the next step fetches again (R155). -/
  | halted
  /-- A fatal condition occurred; no step follows it. -/
  | fatal (reason : FatalReason)
  deriving DecidableEq, Repr

/-- Everything the spec gives the block (10_state.md R20 to R35), and the parameters it was constructed
with. -/
structure State where
  /-- The construction parameters a step reads; no step changes them (20_memory.md R58). -/
  params : Params
  /-- The program counter, a byte address (R24). -/
  pc : Word
  /-- x0..x31 (R20). Entry 0 stays 0; reads and writes go through readReg and writeReg (R21, R22). -/
  regs : Vector Word 32
  /-- The word array M (R32). -/
  mem : Memory
  /-- The count of fetch attempts (R27). -/
  cycles : Nat
  /-- The run status (R28). -/
  status : RunStatus
  deriving DecidableEq, Repr

/-- Why the machine stops with no next state. -/
inductive Fault where
  /-- A step or a load was asked for in the terminal status Fatal(reason): the spec gives it no
  transition (10_state.md R28, 70_reset_and_hazards.md R183, R184). Raised by step and State.load.
  Safe: the run has ended. -/
  | terminated (reason : FatalReason)
  deriving DecidableEq, Repr

/-- Why the model gives an instruction no meaning. -/
inductive Refusal where
  /-- An instruction whose arm of exec has no meaning yet. No arm raises it. Safe: the run stops. -/
  | notModelled (mnemonic : String)
  deriving DecidableEq, Repr

/-- The outcome of a step or of a host operation. -/
abbrev StepOutcome := Host.Outcome State Fault Refusal

/-- Reset, which is construction, for any parameters (R35, 70_reset_and_hazards.md R180). The spec
wants p.memWords ≥ 1 (00_scope.md R7). -/
def State.construct (p : Params) (r : ResetParams) : State :=
  { params := p
    pc := r.pcReset
    regs := (r.initRegs.set 0 0#32).set 2 r.spReset
    mem := Memory.writeWords [] 0 (r.initMem.take p.memWords)
    cycles := 0
    status := .running }

/-- The state after reset at the parameters of Machine/Params.lean. -/
def State.reset : State := State.construct defaultParams defaultResetParams

end Sys2Proof.Machine
end

