-- ==== Sys2Proof/Machine/Operands.lean ====
section
/-! DEFINITION. The operand forms: extended immediates (30_encoding.md R66 to R70), the shift amount,
the effective address and the data index (20_memory.md R43 to R45), and the access widths (R49). -/

namespace Sys2Proof.Machine

/-- sext_12 (00_scope.md R12, 30_encoding.md R66, R67). -/
def sext12 (imm : BitVec 12) : Word := imm.signExtend 32

/-- sext_13 (R68). -/
def sext13 (off : BitVec 13) : Word := off.signExtend 32

/-- sext_21 (R70). -/
def sext21 (off : BitVec 21) : Word := off.signExtend 32

/-- uimm: the 20 bits in place above twelve zeros (R69). -/
def upperImm (imm : BitVec 20) : Word := imm ++ 0#12

/-- The shift amount of SLL, SRL and SRA: b[4:0] (44_alu_register.md R144, R149, R150). -/
def shiftAmount (b : Word) : Nat := (b.extractLsb' 0 5).toNat

/-- A jump target with bit 0 cleared: t & 0xFFFFFFFE (41_control_transfer.md R104 to R106). -/
def clearBit0 (t : Word) : Word := t &&& 0xFFFFFFFE#32

/-- The width of a data access (20_memory.md R49). -/
inductive Width where
  | byte
  | half
  | word
  deriving DecidableEq, Repr

/-- 8·n for the n bytes of the access (00_scope.md R14). -/
def Width.bits : Width → Nat
  | .byte => 8
  | .half => 16
  | .word => 32

/-- dataIndex(EA): the word index of a load or store, none where the access raises
Fatal(DataAddressNegative) (R44, R45). -/
def dataIndex (p : Params) (ea : Word) : Option Nat :=
  if ea.getLsbD 31 = false then some (ea.toNat % p.memWords)
  else
    match p.negEaPolicy with
    | .fatal => none
    | .unsignedMod32 => some (ea.toNat % p.memWords)
    | .signExtMod64 => some ((2 ^ 64 + ea.toInt).toNat % p.memWords)

end Sys2Proof.Machine
end

