-- ==== Sys2Proof/Machine/Ops.lean ====
section
/-! DEFINITION. The named operations over registers, pc, memory and status (00_scope.md R13 to R15),
which every meaning and every step is written in. -/

namespace Sys2Proof.Machine

/-- x[i]: x[0] always reads 0 (00_scope.md R13, 10_state.md R21). -/
def State.readReg (s : State) (i : RegIdx) : Word :=
  if i = 0 then 0#32 else s.regs[i.val]

/-- x[i] <- v: no effect when i = 0 (R13, R22). -/
def State.writeReg (s : State) (i : RegIdx) (v : Word) : State :=
  if i = 0 then s else { s with regs := s.regs.set i.val v }

/-- pc <- t (R13). -/
def State.setPc (s : State) (t : Word) : State := { s with pc := t }

/-- pc + 4, mod 2^32 (10_state.md R25, R26). -/
def State.nextPc (s : State) : Word := s.pc + 4#32

/-- pc <- pc + 4. -/
def State.advance (s : State) : State := s.setPc s.nextPc

/-- MemRead(idx, n): the low 8n bits of M[idx] (00_scope.md R14, 20_memory.md R46). -/
def State.memRead (s : State) (idx : Nat) (n : Width) : BitVec n.bits :=
  (s.mem.read idx).setWidth n.bits

/-- The low 8n bits of old replaced by those of v (R14, R46). -/
def mergeLow (n : Width) (old v : Word) : Word :=
  (old &&& ~~~((BitVec.allOnes n.bits).setWidth 32)) ||| (v.setWidth n.bits).setWidth 32

/-- MemWrite(idx, n, v) (R14). -/
def State.memWrite (s : State) (idx : Nat) (n : Width) (v : Word) : State :=
  { s with mem := s.mem.write idx (mergeLow n (s.mem.read idx) v) }

/-- raise Fatal(reason), the block's one kind of exception: the status becomes Fatal(reason) and
nothing else is written (00_scope.md R15, 45_step_halt_invalid.md R159, 60_exceptions.md R160, R161).
There is no handler and no return from it (R164, R165). -/
def State.raiseFatal (s : State) (reason : FatalReason) : State :=
  { s with status := .fatal reason }

/-- status <- Halted; nothing else (R154). -/
def State.enterHalt (s : State) : State := { s with status := .halted }

/-- Write rd and advance: the end of every instruction that computes a value (R25). -/
def State.writeAndAdvance (s : State) (rd : RegIdx) (v : Word) : State :=
  (s.writeReg rd v).advance

/-- Write rd, and advance only where SRX_ADVANCES_PC says so: the end of SRL and SRA
(44_alu_register.md R148). -/
def State.writeShiftRight (s : State) (rd : RegIdx) (v : Word) : State :=
  if s.params.srxAdvancesPc then s.writeAndAdvance rd v else s.writeReg rd v

/-- Link and jump: x[rd] <- pc + 4; pc <- target with bit 0 cleared (R104 to R106). -/
def State.linkAndJump (s : State) (rd : RegIdx) (target : Word) : State :=
  (s.writeReg rd s.nextPc).setPc (clearBit0 target)

/-- pc <- pc + off if taken, else pc + 4 (R107). -/
def State.branch (s : State) (taken : Bool) (off : Word) : State :=
  s.setPc (if taken then s.pc + off else s.nextPc)

/-- The effective address x[rs1] + imm, mod 2^32 (20_memory.md R43). -/
def State.effectiveAddress (s : State) (rs1 : RegIdx) (off : BitVec 12) : Word :=
  s.readReg rs1 + sext12 off

/-- A load of n bytes, extended by ext (42_load_store.md R116). -/
def State.loadReg (s : State) (rd rs1 : RegIdx) (off : BitVec 12) (n : Width)
    (ext : BitVec n.bits → Word) : State :=
  match dataIndex s.params (s.effectiveAddress rs1 off) with
  | none => s.raiseFatal .dataAddressNegative
  | some idx => s.writeAndAdvance rd (ext (s.memRead idx n))

/-- A store of n bytes of x[rs2] (42_load_store.md R123). -/
def State.storeReg (s : State) (rs1 rs2 : RegIdx) (off : BitVec 12) (n : Width) : State :=
  match dataIndex s.params (s.effectiveAddress rs1 off) with
  | none => s.raiseFatal .dataAddressNegative
  | some idx => (s.memWrite idx n (s.readReg rs2)).advance

/-- u(pc) div 4 (20_memory.md R41); bits 1:0 of pc are discarded (R42). -/
def State.fetchIndex (s : State) : Nat := s.pc.toNat / 4

/-- The fetch: M[u(pc) div 4], none where the index is out of bounds (R41). -/
def State.fetch (s : State) : Option Word :=
  if s.fetchIndex < s.params.memWords then some (s.mem.read s.fetchIndex) else none

/-- What a step does once its fetch has succeeded and before the instruction executes: cycles
<- cycles + 1 and status <- Running (45_step_halt_invalid.md R153; log entry 12 for the halt word). -/
def State.beginExecute (s : State) : State :=
  { s with cycles := s.cycles + 1, status := .running }

/-- The word put where the next fetch reads, if that word exists. -/
def State.placeAtFetch (s : State) (w : Word) : State :=
  if s.fetchIndex < s.params.memWords then { s with mem := s.mem.write s.fetchIndex w } else s

end Sys2Proof.Machine
end

