-- ==== Sys2Proof/Machine/AluImmediate.lean ====
section
/-! DEFINITION. The register-immediate ALU operations and the shift-immediate no-ops
(43_alu_immediate.md). -/

namespace Sys2Proof.Machine

/-- ADDI: a + i, mod 2^32 (R129). -/
def execAddi (rd rs1 : RegIdx) (imm : BitVec 12) (s : State) : StepOutcome :=
  .next (s.writeAndAdvance rd (s.readReg rs1 + sext12 imm))

/-- SLTI: 1 if a <s i else 0 (R130). -/
def execSlti (rd rs1 : RegIdx) (imm : BitVec 12) (s : State) : StepOutcome :=
  .next (s.writeAndAdvance rd (boolWord (isLessSigned (s.readReg rs1) (sext12 imm))))

/-- SLTIU: 1 if a <u i else 0, i sign-extended (R131). -/
def execSltiu (rd rs1 : RegIdx) (imm : BitVec 12) (s : State) : StepOutcome :=
  .next (s.writeAndAdvance rd (boolWord (isLessUnsigned (s.readReg rs1) (sext12 imm))))

/-- XORI (R132). -/
def execXori (rd rs1 : RegIdx) (imm : BitVec 12) (s : State) : StepOutcome :=
  .next (s.writeAndAdvance rd (s.readReg rs1 ^^^ sext12 imm))

/-- ORI (R133). -/
def execOri (rd rs1 : RegIdx) (imm : BitVec 12) (s : State) : StepOutcome :=
  .next (s.writeAndAdvance rd (s.readReg rs1 ||| sext12 imm))

/-- ANDI (R134). -/
def execAndi (rd rs1 : RegIdx) (imm : BitVec 12) (s : State) : StepOutcome :=
  .next (s.writeAndAdvance rd (s.readReg rs1 &&& sext12 imm))

/-- SLLI: no register read or written, pc + 4 (R135, R136). -/
def execSlli (_rd _rs1 : RegIdx) (_imm : BitVec 12) (s : State) : StepOutcome :=
  .next s.advance

/-- SRLI: no register read or written, pc + 4 (R135, R137). -/
def execSrli (_rd _rs1 : RegIdx) (_shamt : BitVec 5) (s : State) : StepOutcome :=
  .next s.advance

/-- SRAI: no register read or written, pc + 4 (R135, R138). -/
def execSrai (_rd _rs1 : RegIdx) (_shamt : BitVec 5) (s : State) : StepOutcome :=
  .next s.advance

/-- SRxI: the same no-op (R135, R138). -/
def execSrxi (_rd _rs1 : RegIdx) (_shamt : BitVec 5) (_funct7 : BitVec 7) (s : State) : StepOutcome :=
  .next s.advance

end Sys2Proof.Machine
end

