-- ==== Sys2Proof/Machine/AluRegister.lean ====
section
/-! DEFINITION. The register-register ALU operations (44_alu_register.md). -/

namespace Sys2Proof.Machine

/-- ADD: a + b, mod 2^32 (R141). -/
def execAdd (rd rs1 rs2 : RegIdx) (s : State) : StepOutcome :=
  .next (s.writeAndAdvance rd (s.readReg rs1 + s.readReg rs2))

/-- SUB: a − b, mod 2^32 (R142). -/
def execSub (rd rs1 rs2 : RegIdx) (s : State) : StepOutcome :=
  .next (s.writeAndAdvance rd (s.readReg rs1 - s.readReg rs2))

/-- OP funct3 000 with another funct7: Fatal(InvalidFunct7) (R143). -/
def execFatalOpFunct7 (_w : Word) (s : State) : StepOutcome :=
  .next (s.raiseFatal .invalidFunct7)

/-- SLL: a << b[4:0] (R144); funct7 is not examined (R140). -/
def execSll (rd rs1 rs2 : RegIdx) (_funct7 : BitVec 7) (s : State) : StepOutcome :=
  .next (s.writeAndAdvance rd (s.readReg rs1 <<< shiftAmount (s.readReg rs2)))

/-- SLT: 1 if a <s b else 0 (R145). -/
def execSlt (rd rs1 rs2 : RegIdx) (_funct7 : BitVec 7) (s : State) : StepOutcome :=
  .next (s.writeAndAdvance rd (boolWord (isLessSigned (s.readReg rs1) (s.readReg rs2))))

/-- SLTU: 1 if a <u b else 0 (R146). -/
def execSltu (rd rs1 rs2 : RegIdx) (_funct7 : BitVec 7) (s : State) : StepOutcome :=
  .next (s.writeAndAdvance rd (boolWord (isLessUnsigned (s.readReg rs1) (s.readReg rs2))))

/-- OP funct3 100: Fatal(InvalidFunct3) (R147). -/
def execFatalOpXor (_w : Word) (s : State) : StepOutcome :=
  .next (s.raiseFatal .invalidFunct3)

/-- SRL: a >>u b[4:0]; pc as R148 says (R149). -/
def execSrl (rd rs1 rs2 : RegIdx) (s : State) : StepOutcome :=
  .next (s.writeShiftRight rd (s.readReg rs1 >>> shiftAmount (s.readReg rs2)))

/-- SRA: a >>s b[4:0]; pc as R148 says (R150). -/
def execSra (rd rs1 rs2 : RegIdx) (_funct7 : BitVec 7) (s : State) : StepOutcome :=
  .next (s.writeShiftRight rd ((s.readReg rs1).sshiftRight (shiftAmount (s.readReg rs2))))

/-- OR (R151). -/
def execOr (rd rs1 rs2 : RegIdx) (_funct7 : BitVec 7) (s : State) : StepOutcome :=
  .next (s.writeAndAdvance rd (s.readReg rs1 ||| s.readReg rs2))

/-- AND (R152). -/
def execAnd (rd rs1 rs2 : RegIdx) (_funct7 : BitVec 7) (s : State) : StepOutcome :=
  .next (s.writeAndAdvance rd (s.readReg rs1 &&& s.readReg rs2))

end Sys2Proof.Machine
end

