-- ==== Sys2Proof/Machine/ControlTransfer.lean ====
section
/-! DEFINITION. The jumps and the six branches (41_control_transfer.md). -/

namespace Sys2Proof.Machine

/-- JAL: x[rd] <- pc + 4; pc <- (pc + jimm) & ~1 (R105). -/
def execJal (rd : RegIdx) (off : BitVec 21) (s : State) : StepOutcome :=
  .next (s.linkAndJump rd (s.pc + sext21 off))

/-- JALR: x[rd] <- pc + 4; pc <- (pc + iimm) & ~1. The base register is not read (R106). -/
def execJalr (rd _rs1 : RegIdx) (off : BitVec 12) (s : State) : StepOutcome :=
  .next (s.linkAndJump rd (s.pc + sext12 off))

/-- JALR with funct3 other than 000: Fatal(InvalidFunct3) (R106). -/
def execFatalJalrFunct3 (_w : Word) (s : State) : StepOutcome :=
  .next (s.raiseFatal .invalidFunct3)

/-- BEQ: taken when a = b (R108). -/
def execBeq (rs1 rs2 : RegIdx) (off : BitVec 13) (s : State) : StepOutcome :=
  .next (s.branch (isEqual (s.readReg rs1) (s.readReg rs2)) (sext13 off))

/-- BNE: taken when a ≠ b (R109). -/
def execBne (rs1 rs2 : RegIdx) (off : BitVec 13) (s : State) : StepOutcome :=
  .next (s.branch (!isEqual (s.readReg rs1) (s.readReg rs2)) (sext13 off))

/-- BLT: taken when a <s b (R110). -/
def execBlt (rs1 rs2 : RegIdx) (off : BitVec 13) (s : State) : StepOutcome :=
  .next (s.branch (isLessSigned (s.readReg rs1) (s.readReg rs2)) (sext13 off))

/-- BGE: taken when not a <s b (R111). -/
def execBge (rs1 rs2 : RegIdx) (off : BitVec 13) (s : State) : StepOutcome :=
  .next (s.branch (!isLessSigned (s.readReg rs1) (s.readReg rs2)) (sext13 off))

/-- BLTU: taken when a <u b (R112). -/
def execBltu (rs1 rs2 : RegIdx) (off : BitVec 13) (s : State) : StepOutcome :=
  .next (s.branch (isLessUnsigned (s.readReg rs1) (s.readReg rs2)) (sext13 off))

/-- BGEU: taken when not a <u b (R113). -/
def execBgeu (rs1 rs2 : RegIdx) (off : BitVec 13) (s : State) : StepOutcome :=
  .next (s.branch (!isLessUnsigned (s.readReg rs1) (s.readReg rs2)) (sext13 off))

/-- BRANCH with funct3 010 or 011: Fatal(InvalidFunct3) (R114). -/
def execFatalBranchFunct3 (_w : Word) (s : State) : StepOutcome :=
  .next (s.raiseFatal .invalidFunct3)

end Sys2Proof.Machine
end

