-- ==== Sys2Proof/Machine/HaltInvalid.lean ====
section
/-! DEFINITION. The halt word and the words whose opcode the block lacks (45_step_halt_invalid.md). -/

namespace Sys2Proof.Machine

/-- HALT: status <- Halted; pc, registers and memory unchanged (R154). -/
def execHalt (s : State) : StepOutcome :=
  .next s.enterHalt

/-- FENCE and FENCE.I: Fatal(InvalidOpcode) (R156). -/
def execFatalMiscMem (_w : Word) (s : State) : StepOutcome :=
  .next (s.raiseFatal .invalidOpcode)

/-- ECALL, EBREAK and the CSR instructions: Fatal(InvalidOpcode) (R157). -/
def execFatalSystem (_w : Word) (s : State) : StepOutcome :=
  .next (s.raiseFatal .invalidOpcode)

/-- Any other word with an opcode the block lacks: Fatal(InvalidOpcode) (R158). -/
def execFatalInvalidOpcode (_w : Word) (s : State) : StepOutcome :=
  .next (s.raiseFatal .invalidOpcode)

end Sys2Proof.Machine
end

