-- ==== Sys2Proof/Machine/LoadStore.lean ====
section
/-! DEFINITION. The loads and stores (42_load_store.md). -/

namespace Sys2Proof.Machine

/-- LB: x[rd] <- sext_8(M[didx][7:0]) (R117). -/
def execLb (rd rs1 : RegIdx) (off : BitVec 12) (s : State) : StepOutcome :=
  .next (s.loadReg rd rs1 off .byte (BitVec.signExtend 32))

/-- LH: x[rd] <- sext_16(M[didx][15:0]) (R118). -/
def execLh (rd rs1 : RegIdx) (off : BitVec 12) (s : State) : StepOutcome :=
  .next (s.loadReg rd rs1 off .half (BitVec.signExtend 32))

/-- LW: x[rd] <- M[didx] (R119). -/
def execLw (rd rs1 : RegIdx) (off : BitVec 12) (s : State) : StepOutcome :=
  .next (s.loadReg rd rs1 off .word (BitVec.setWidth 32))

/-- LBU: x[rd] <- zext_8(M[didx][7:0]) (R120). -/
def execLbu (rd rs1 : RegIdx) (off : BitVec 12) (s : State) : StepOutcome :=
  .next (s.loadReg rd rs1 off .byte (BitVec.setWidth 32))

/-- LHU: x[rd] <- zext_16(M[didx][15:0]) (R121). -/
def execLhu (rd rs1 : RegIdx) (off : BitVec 12) (s : State) : StepOutcome :=
  .next (s.loadReg rd rs1 off .half (BitVec.setWidth 32))

/-- LOAD with funct3 011, 110 or 111: Fatal(InvalidFunct3) (R122). -/
def execFatalLoadFunct3 (_w : Word) (s : State) : StepOutcome :=
  .next (s.raiseFatal .invalidFunct3)

/-- SB: M[didx][7:0] <- x[rs2][7:0] (R124). -/
def execSb (rs1 rs2 : RegIdx) (off : BitVec 12) (s : State) : StepOutcome :=
  .next (s.storeReg rs1 rs2 off .byte)

/-- SH: M[didx][15:0] <- x[rs2][15:0] (R125). -/
def execSh (rs1 rs2 : RegIdx) (off : BitVec 12) (s : State) : StepOutcome :=
  .next (s.storeReg rs1 rs2 off .half)

/-- SW: M[didx] <- x[rs2] (R126). -/
def execSw (rs1 rs2 : RegIdx) (off : BitVec 12) (s : State) : StepOutcome :=
  .next (s.storeReg rs1 rs2 off .word)

/-- STORE with funct3 011..111: Fatal(InvalidFunct3) (R127). -/
def execFatalStoreFunct3 (_w : Word) (s : State) : StepOutcome :=
  .next (s.raiseFatal .invalidFunct3)

end Sys2Proof.Machine
end

