-- ==== Sys2Proof/Machine/UpperImmediate.lean ====
section
/-! DEFINITION. LUI and AUIPC (40_upper_immediate.md). -/

namespace Sys2Proof.Machine

/-- LUI: x[rd] <- uimm (R100). -/
def execLui (rd : RegIdx) (imm : BitVec 20) (s : State) : StepOutcome :=
  .next (s.writeAndAdvance rd (upperImm imm))

/-- AUIPC: x[rd] <- uimm + pc (R101). -/
def execAuipc (rd : RegIdx) (imm : BitVec 20) (s : State) : StepOutcome :=
  .next (s.writeAndAdvance rd (upperImm imm + s.pc))

end Sys2Proof.Machine
end

