-- ==== Sys2Proof/Machine/Step.lean ====
section
/-! DEFINITION. One step of the engine (45_step_halt_invalid.md R153, 70_reset_and_hazards.md R184). -/

namespace Sys2Proof.Machine

/-- The step from a status other than Fatal: fetch, count, decode, execute, in the order of R153 and
R162. The halt test is the decoder's first (R72). -/
def fetchAndExecute (s : State) : StepOutcome :=
  match s.fetch with
  | none => .next (s.raiseFatal .fetchOutOfBounds)
  | some w => exec (decode w) s.beginExecute

/-- One transition. From Fatal no step exists (R28, R184). -/
def step (s : State) : Host.Outcome State Fault Refusal :=
  match s.status with
  | .fatal reason => .fault (.terminated reason)
  | .running | .halted => fetchAndExecute s

/-- s with the instruction word w stored where step fetches next, so that step runs it: what the host's
Load of one word at index u(pc) div 4 does (R181, R187; log entry 13). -/
def State.withFetchWord (s : State) (_nbits w : Nat) : State :=
  s.placeAtFetch (BitVec.ofNat 32 w)

end Sys2Proof.Machine
end

