-- ==== Sys2Proof/Machine/Assembler.lean ====
section
/-! DEFINITION. The toolchain of 30_encoding.md §6: what words the assembler produces. It is not part of
the block (00_scope.md R4) and touches no State. What the spec leaves open is an argument (AsmParams) or
a named error; log entry 19. -/

namespace Sys2Proof.Machine

/-- The assembler's fatal errors (60_exceptions.md R160; 30_encoding.md R82 to R86). They never reach the
block. -/
inductive AsmError where
  | malformedRegister
  | unknownMnemonic
  | unparseableImmediate
  | unsupportedArity
  | duplicateLabel
  | multiLineComment
  /-- A lui or auipc line: the spec gives no U-type packing and no routing (R91), so no word is made. -/
  | uTypeNotGiven
  deriving DecidableEq, Repr

/-- A radix rule (ASM_RADIX, D33): the radix of a number, and leading texts such as 0x that select another
radix for the digits after them. The spec leaves the rule open, so every rule of this form is a value. -/
structure AsmRadix where
  /-- The radix of a number that no leading text begins. -/
  base : Nat
  /-- The leading texts, each with its radix; the first that fits is taken. -/
  leads : List (List Char × Nat)
  deriving DecidableEq, Repr

/-- What the spec leaves open about the toolchain (91_not_in_source.md G14). -/
structure AsmParams where
  /-- ASM_RADIX: the radix rule of an immediate (R86, D33). -/
  radix : AsmRadix
  /-- Whether a comment marker inside a token starts a comment, and whether the start of a multi-line comment
  inside a token is one (log entry 29). -/
  markerInsideToken : Bool
  /-- The initial prev of the hazard pass. -/
  prev : Option RegIdx
  /-- The initial prev2 of the hazard pass. -/
  prev2 : Option RegIdx
  /-- Whether x0 counts as a destination in the hazard pass. -/
  x0IsDestination : Bool

/-- Lower-case the line and strip commas (R81). DESIGN CHOICE: a stripped comma is deleted and does not become
whitespace, so a comma with no whitespace beside it joins two operands in one token (log entry 27). -/
def asmNormalize (line : List Char) : List Char := (line.filter (· != ',')).map Char.toLower

/-- Whitespace between tokens (R81): space, tab, CR and LF. DESIGN CHOICE: the spec does not say which
characters are whitespace (log entry 22). -/
def asmIsSpace (c : Char) : Bool := c == ' ' || c == '\t' || c == '\r' || c == '\n'

/-- Split on whitespace; acc holds the token being read, reversed (R81). -/
def asmSplit : List Char → List Char → List (List Char)
  | [], acc => if acc = [] then [] else [acc.reverse]
  | c :: cs, acc =>
    if asmIsSpace c then (if acc = [] then [] else [acc.reverse]) ++ asmSplit cs []
    else asmSplit cs (c :: acc)

/-- The text begins with a comment marker (R81). -/
def asmStartsComment : List Char → Bool
  | '#' :: _ => true
  | '/' :: '/' :: _ => true
  | _ => false

/-- The text begins with the start of a multi-line comment (R82). -/
def asmStartsMultiLine : List Char → Bool
  | '/' :: '*' :: _ => true
  | _ => false

/-- Stop at a marker wherever it stands. -/
def asmCutChars : List Char → Except AsmError (List Char)
  | [] => .ok []
  | c :: cs =>
    if asmStartsMultiLine (c :: cs) then .error .multiLineComment
    else if asmStartsComment (c :: cs) then .ok []
    else (asmCutChars cs).map (c :: ·)

/-- Stop at a token that begins with a marker. -/
def asmCutTokens : List (List Char) → Except AsmError (List (List Char))
  | [] => .ok []
  | t :: ts =>
    if asmStartsMultiLine t then .error .multiLineComment
    else if asmStartsComment t then .ok []
    else (asmCutTokens ts).map (t :: ·)

/-- The tokens of a line (R81, R82). DESIGN CHOICE: where a comment marker inside a token starts a comment, the
start of a multi-line comment inside a token is fatal too, and where it does not, only at a token's start (log
entry 29). -/
def asmTokens (p : AsmParams) (line : List Char) : Except AsmError (List (List Char)) :=
  if p.markerInsideToken then (asmCutChars (asmNormalize line)).map (asmSplit · [])
  else asmCutTokens (asmSplit (asmNormalize line) [])

/-- The value of a decimal digit. -/
def asmDigit (c : Char) : Option Nat :=
  if '0'.toNat ≤ c.toNat ∧ c.toNat ≤ '9'.toNat then some (c.toNat - '0'.toNat) else none

/-- Register-name lookup: x0..x31, anything else is an error (R85). -/
def asmRegister : List Char → Except AsmError RegIdx
  | ['x', a] =>
    match asmDigit a with
    | some n => if h : n < 32 then .ok ⟨n, h⟩ else .error .malformedRegister
    | none => .error .malformedRegister
  | ['x', a, b] =>
    match asmDigit a, asmDigit b with
    | some m, some n =>
      if h : m ≠ 0 ∧ 10 * m + n < 32 then .ok ⟨10 * m + n, h.2⟩ else .error .malformedRegister
    | _, _ => .error .malformedRegister
  | _ => .error .malformedRegister

/-- The value of a digit of any radix up to 36: 0 to 9, then a to z (the line is lower-case, R81). -/
def asmDigitValue (c : Char) : Option Nat :=
  if 'a'.toNat ≤ c.toNat ∧ c.toNat ≤ 'z'.toNat then some (c.toNat - 'a'.toNat + 10) else asmDigit c

/-- The number the digits write after acc, none where a character is no digit of the radix. -/
def asmDigits (radix : Nat) : List Char → Nat → Option Nat
  | [], acc => some acc
  | c :: cs, acc =>
    match asmDigitValue c with
    | some d => if d < radix then asmDigits radix cs (acc * radix + d) else none
    | none => none

/-- The radix of an unsigned number and the digits to read: a leading text counts only if something follows
it. -/
def AsmRadix.select (r : AsmRadix) (t : List Char) : Nat × List Char :=
  match r.leads.find? (fun lead => lead.1.isPrefixOf t && lead.1.length < t.length) with
  | some lead => (lead.2, t.drop lead.1.length)
  | none => (r.base, t)

/-- An unsigned number: one digit or more, and nothing else. -/
def asmUnsigned (r : AsmRadix) (t : List Char) : Option Nat :=
  match r.select t with
  | (_, []) => none
  | (radix, c :: cs) => asmDigits radix (c :: cs) 0

/-- Signed-integer parsing (R86): an optional sign, then a number. Whatever is not one, a label (R83, I6) or
nothing at all, fails. DESIGN CHOICE, the spec being silent: a plus sign is accepted, the whole text must be the
number, and no magnitude is too large (log entry 28). -/
def asmInteger (r : AsmRadix) : List Char → Option Int
  | '-' :: t => (asmUnsigned r t).map (fun n => -(n : Int))
  | '+' :: t => (asmUnsigned r t).map (fun n => (n : Int))
  | t => (asmUnsigned r t).map (fun n => (n : Int))

/-- An immediate; a failed parse is an error (R86). -/
def asmImmediate (p : AsmParams) (t : List Char) : Except AsmError Int :=
  match asmInteger p.radix t with
  | some n => .ok n
  | none => .error .unparseableImmediate

/-- IMM(REG): a leading parenthesis with nothing before it is immediate 0 (R86). DESIGN CHOICE, the spec
being silent: the closing parenthesis may be missing, and what follows it is not read (log entry 21). -/
def asmBase (p : AsmParams) (t : List Char) : Except AsmError (Int × RegIdx) := do
  let before := t.takeWhile (· != '(')
  let inside := ((t.dropWhile (· != '(')).drop 1).takeWhile (· != ')')
  let imm ← if before = [] then .ok 0 else asmImmediate p before
  let base ← asmRegister inside
  return (imm, base)

/-- An instruction the assembler can build (R84, R87 to R90). -/
inductive AsmInstr where
  | r (f7 : BitVec 7) (f3 : BitVec 3) (rd rs1 rs2 : RegIdx)
  | i (op : BitVec 7) (f3 : BitVec 3) (rd rs1 : RegIdx) (imm : Int)
  | s (f3 : BitVec 3) (rs1 rs2 : RegIdx) (imm : Int)
  | b (f3 : BitVec 3) (rs1 rs2 : RegIdx) (imm : Int)
  deriving DecidableEq, Repr

/-- The format of a mnemonic, with its field values (R62, R73, R74, R95). -/
inductive AsmFormat where
  | r (f7 : BitVec 7) (f3 : BitVec 3)
  | i (op : BitVec 7) (f3 : BitVec 3)
  | s (f3 : BitVec 3)
  | b (f3 : BitVec 3)
  | u
  deriving DecidableEq, Repr

/-- The R-type mnemonics: the OP operations of R73, with funct7 0100000 for sub and sra (R95). DESIGN
CHOICE: xor is no mnemonic, since R73 has it as not implemented; D34 can be read otherwise (log entry 25). -/
def asmTableR : List (String × AsmFormat) :=
  [("add", .r 0x00#7 0b000#3), ("sub", .r 0x20#7 0b000#3), ("sll", .r 0x00#7 0b001#3),
   ("slt", .r 0x00#7 0b010#3), ("sltu", .r 0x00#7 0b011#3), ("srl", .r 0x00#7 0b101#3),
   ("sra", .r 0x20#7 0b101#3), ("or", .r 0x00#7 0b110#3), ("and", .r 0x00#7 0b111#3)]

/-- The I-type mnemonics (R73, R95). DESIGN CHOICE: an srai line is packed by R88 alone, so w[31:25] comes
from its immediate and not from the canonical 0100000 of R138 (log entry 24). -/
def asmTableI : List (String × AsmFormat) :=
  [("addi", .i 0x13#7 0b000#3), ("slti", .i 0x13#7 0b010#3), ("sltiu", .i 0x13#7 0b011#3),
   ("xori", .i 0x13#7 0b100#3), ("ori", .i 0x13#7 0b110#3), ("andi", .i 0x13#7 0b111#3),
   ("slli", .i 0x13#7 0b001#3), ("srli", .i 0x13#7 0b101#3), ("srai", .i 0x13#7 0b101#3),
   ("lb", .i 0x03#7 0b000#3), ("lh", .i 0x03#7 0b001#3), ("lw", .i 0x03#7 0b010#3),
   ("lbu", .i 0x03#7 0b100#3), ("lhu", .i 0x03#7 0b101#3), ("jalr", .i 0x67#7 0b000#3)]

/-- The S-, B- and U-type mnemonics (R73, R91, R95). There is no jal: the assembler cannot produce it
(R91). -/
def asmTableSBU : List (String × AsmFormat) :=
  [("sb", .s 0b000#3), ("sh", .s 0b001#3), ("sw", .s 0b010#3),
   ("beq", .b 0b000#3), ("bne", .b 0b001#3), ("blt", .b 0b100#3), ("bge", .b 0b101#3),
   ("bltu", .b 0b110#3), ("bgeu", .b 0b111#3), ("lui", .u), ("auipc", .u)]

/-- The format of a mnemonic; an unknown one is an error (R84). -/
def asmFormat (m : List Char) : Except AsmError AsmFormat :=
  match (asmTableR ++ asmTableI ++ asmTableSBU).find? (fun row => row.1.toList == m) with
  | some row => .ok row.2
  | none => .error .unknownMnemonic

/-- Exactly four tokens: R-, I- or B-type by the mnemonic (R84, R95). DESIGN CHOICE: with an S-type
mnemonic, which R84 gives no outcome, unsupportedArity (log entry 23). -/
def asmFour (p : AsmParams) (m a b c : List Char) : Except AsmError AsmInstr := do
  match ← asmFormat m with
  | .r f7 f3 => return .r f7 f3 (← asmRegister a) (← asmRegister b) (← asmRegister c)
  | .i op f3 => return .i op f3 (← asmRegister a) (← asmRegister b) (← asmImmediate p c)
  | .b f3 => return .b f3 (← asmRegister a) (← asmRegister b) (← asmImmediate p c)
  | .s _ => .error .unsupportedArity
  | .u => .error .uTypeNotGiven

/-- Exactly three tokens: S-type or the form op rd, imm(rs1) of the I-type (R84, R89). DESIGN CHOICE: with an
R- or B-type mnemonic, which R84 gives no outcome, unsupportedArity (log entry 23). -/
def asmThree (p : AsmParams) (m a b : List Char) : Except AsmError AsmInstr := do
  match ← asmFormat m with
  | .s f3 =>
    let rs2 ← asmRegister a
    let (imm, rs1) ← asmBase p b
    return .s f3 rs1 rs2 imm
  | .i op f3 =>
    let rd ← asmRegister a
    let (imm, rs1) ← asmBase p b
    return .i op f3 rd rs1 imm
  | .r _ _ => .error .unsupportedArity
  | .b _ => .error .unsupportedArity
  | .u => .error .uTypeNotGiven

/-- What a line is: a label or an instruction (R81, R83, R84). -/
inductive AsmLine where
  | label (name : List Char)
  | instr (i : AsmInstr)
  deriving DecidableEq, Repr

/-- One line (R81 to R84): a single token ending in a colon is a label; then the token count selects. Every
other count is the error of R84, a line without tokens included. -/
def asmLine (p : AsmParams) (line : List Char) : Except AsmError AsmLine := do
  match ← asmTokens p line with
  | [] => .error .unsupportedArity
  | [t] => if t.getLast? = some ':' then return .label t.dropLast else .error .unsupportedArity
  | [m, a, b] => return .instr (← asmThree p m a b)
  | [m, a, b, c] => return .instr (← asmFour p m a b c)
  | _ => .error .unsupportedArity

/-- A field placed at bit n of a word. -/
def asmPlace {k : Nat} (x : BitVec k) (n : Nat) : Word := x.setWidth 32 <<< n

/-- funct7<<25 | rs2<<20 | rs1<<15 | funct3<<12 | rd<<7 | opcode (R87). -/
def asmPackR (f7 : BitVec 7) (f3 : BitVec 3) (rd rs1 rs2 : RegIdx) : Word :=
  asmPlace f7 25 ||| asmPlace (regBits rs2) 20 ||| asmPlace (regBits rs1) 15 ||| asmPlace f3 12 |||
    asmPlace (regBits rd) 7 ||| asmPlace 0x33#7 0

/-- imm<<20 | rs1<<15 | funct3<<12 | rd<<7 | opcode, the immediate not masked before the shift (R88). -/
def asmPackI (op : BitVec 7) (f3 : BitVec 3) (rd rs1 : RegIdx) (imm : Int) : Word :=
  asmPlace (BitVec.ofInt 32 imm) 20 ||| asmPlace (regBits rs1) 15 ||| asmPlace f3 12 |||
    asmPlace (regBits rd) 7 ||| asmPlace op 0

/-- The S-type split: upper = (imm>>5)&0x7F at bit 25, lower = imm&0x1F at bit 7 (R89). -/
def asmPackSplit (op : BitVec 7) (f3 : BitVec 3) (rs1 rs2 : RegIdx) (imm : Int) : Word :=
  asmPlace (BitVec.ofInt 32 (imm / 32) &&& 0x7F#32) 25 ||| asmPlace (regBits rs2) 20 |||
    asmPlace (regBits rs1) 15 ||| asmPlace f3 12 |||
    asmPlace (BitVec.ofInt 32 imm &&& 0x1F#32) 7 ||| asmPlace op 0

/-- The word the assembler writes; a branch is packed with the S-type split (R87 to R90). -/
def AsmInstr.encode : AsmInstr → Word
  | .r f7 f3 rd rs1 rs2 => asmPackR f7 f3 rd rs1 rs2
  | .i op f3 rd rs1 imm => asmPackI op f3 rd rs1 imm
  | .s f3 rs1 rs2 imm => asmPackSplit 0x23#7 f3 rs1 rs2 imm
  | .b f3 rs1 rs2 imm => asmPackSplit 0x63#7 f3 rs1 rs2 imm

/-- The source registers (R92). -/
def AsmInstr.srcs : AsmInstr → List RegIdx
  | .r _ _ _ rs1 rs2 => [rs1, rs2]
  | .i _ _ _ rs1 _ => [rs1]
  | .s _ rs1 rs2 _ => [rs1, rs2]
  | .b _ rs1 rs2 _ => [rs1, rs2]

/-- The destination register: none for the S and B types (R92); whether x0 is one is open. -/
def AsmInstr.dest (x0IsDestination : Bool) : AsmInstr → Option RegIdx
  | .r _ _ rd _ _ => if rd = 0 ∧ x0IsDestination = false then none else some rd
  | .i _ _ rd _ _ => if rd = 0 ∧ x0IsDestination = false then none else some rd
  | .s _ _ _ _ => none
  | .b _ _ _ _ => none

/-- The instruction reads the register r stands for, if any. -/
def AsmInstr.reads (c : AsmInstr) (r : Option RegIdx) : Bool :=
  match r with
  | some reg => c.srcs.contains reg
  | none => false

/-- The no-op word: all zero (R93). On this block it halts (R154). -/
def asmNoOp : Word := 0#32

/-- The no-op words put before an instruction (R92). -/
def asmPadding (x0IsDestination : Bool) (c : AsmInstr) (prev prev2 : Option RegIdx) : List Word :=
  if c.reads prev then [asmNoOp, asmNoOp]
  else if (c.dest x0IsDestination).isSome && c.reads prev2 then [asmNoOp]
  else []

/-- The hazard-mitigation pass (R92). -/
def hazardPass (x0IsDestination : Bool) : List AsmInstr → Option RegIdx → Option RegIdx → List Word
  | [], _, _ => []
  | c :: cs, prev, prev2 =>
    asmPadding x0IsDestination c prev prev2 ++
      c.encode :: hazardPass x0IsDestination cs (c.dest x0IsDestination) prev

/-- The instructions of the lines, with the label table kept only to find duplicates (R83). -/
def asmInstrs (p : AsmParams) : List (List Char) → List (List Char) → Except AsmError (List AsmInstr)
  | [], _ => .ok []
  | line :: rest, labels => do
    match ← asmLine p line with
    | .label name => if labels.contains name then .error .duplicateLabel else asmInstrs p rest (name :: labels)
    | .instr i => return i :: (← asmInstrs p rest labels)

/-- The assembler: lines to words (R81 to R94). -/
def assemble (p : AsmParams) (lines : List (List Char)) : Except AsmError (List Word) :=
  (asmInstrs p lines []).map (fun is => hazardPass p.x0IsDestination is p.prev p.prev2)

end Sys2Proof.Machine
end

