-- ==== Sys2Proof/Machine/HostOps.lean ====
section
/-! DEFINITION. The host operations: Load, Observe (70_reset_and_hazards.md R181 to R185), and the sequence
of steps and loads that a run is (R186). Reset is State.construct. -/

namespace Sys2Proof.Machine

/-- Load(offset, words), offset a word index: checked first, and nothing is written past the capacity
(R181, R182). It changes only the words it copies; it is not permitted after Fatal (R183). -/
def State.load (s : State) (offset : Nat) (words : List Word) : StepOutcome :=
  match s.status with
  | .fatal reason => .fault (.terminated reason)
  | .running | .halted =>
    if offset + words.length > s.params.memWords then .next (s.raiseFatal .loadOutOfBounds)
    else .next { s with mem := s.mem.writeWords offset words }

/-- An operation the host performs on a running block (R181, R184). Reset makes a new block (R180), and
Observe changes nothing (R185), so neither is one of a run. -/
inductive HostOp where
  /-- Step (R184). -/
  | step
  /-- Load(offset, words) (R181). -/
  | load (offset : Nat) (words : List Word)
  deriving DecidableEq, Repr

/-- One operation of the host on the block. -/
def State.operate (s : State) (op : HostOp) : StepOutcome :=
  match op with
  | .step => step s
  | .load offset words => s.load offset words

/-- The first k operations of ops, in order, up to the first without a next state. -/
def runOps (ops : Nat → HostOp) : Nat → State → StepOutcome
  | 0, s => .next s
  | k + 1, s =>
    match runOps ops k s with
    | .next t => t.operate (ops k)
    | .fault f => .fault f
    | .refused r => .refused r

/-- The host that only steps. -/
def stepsOnly : Nat → HostOp := fun _ => .step

/-- What the host reads between operations (R185). -/
structure Observation where
  pc : Word
  regs : List Word
  mem : List Word
  cycles : Nat
  status : RunStatus
  deriving DecidableEq, Repr

/-- Observe: pc, x[0..31], M[0..MEM_WORDS−1], cycles and status; it changes nothing (R185). -/
def State.observe (s : State) : Observation :=
  { pc := s.pc
    regs := (List.finRange 32).map s.readReg
    mem := (List.range s.params.memWords).map s.mem.read
    cycles := s.cycles
    status := s.status }

end Sys2Proof.Machine
end

