-- ==== Sys2Proof/Safety.lean ====
section
/-! DEFINITION. What counts as a state of the block, and how a run ends (70_reset_and_hazards.md R186). -/

namespace Sys2Proof.Machine

/-- The state is one the block can be in: the capacity is at least 1 (00_scope.md R7), memory is in
canonical form and lists only words that exist (10_state.md R32), and the entry of x0 is 0 (R21). -/
abbrev State.Inv (s : State) : Prop :=
  1 ≤ s.params.memWords ∧ s.mem.wf ∧ s.mem.within s.params.memWords ∧ s.regs[0] = 0#32

/-- The run from s after k steps (Host.Core.run). -/
def runFor (k : Nat) (s : State) : StepOutcome := Host.Core.run Sys2Proof.core k s

/-- After k operations from s the block is in a state whose status is st. -/
def StatusAfter (ops : Nat → HostOp) (s : State) (k : Nat) (st : RunStatus) : Prop :=
  ∃ t, runOps ops k s = .next t ∧ t.status = st

/-- Operation k, counted from 1, is a step, and with it the status becomes Halted. -/
def HaltsAt (ops : Nat → HostOp) (s : State) (k : Nat) : Prop :=
  1 ≤ k ∧ ops (k - 1) = .step ∧ StatusAfter ops s k .halted

/-- With operation k, counted from 1, a step or a load, the status becomes Fatal(r). -/
def FailsAt (ops : Nat → HostOp) (s : State) (k : Nat) (r : FatalReason) : Prop :=
  1 ≤ k ∧ StatusAfter ops s k (.fatal r)

/-- No operation before k has ended the run. -/
def NotEndedBefore (ops : Nat → HostOp) (s : State) (k : Nat) : Prop :=
  ∀ j, j < k → ¬ HaltsAt ops s j ∧ ∀ r, ¬ FailsAt ops s j r

/-- The run ends well at k: the first step whose status becomes Halted, before any end (R186). -/
def EndsWellAt (ops : Nat → HostOp) (s : State) (k : Nat) : Prop :=
  NotEndedBefore ops s k ∧ HaltsAt ops s k

/-- The run ends badly at k: the first operation whose status becomes Fatal(r), before any end (R186). DESIGN
CHOICE: a run that ended well does not end badly later (log entry 26). -/
def EndsBadlyAt (ops : Nat → HostOp) (s : State) (k : Nat) (r : FatalReason) : Prop :=
  NotEndedBefore ops s k ∧ FailsAt ops s k r

/-- The run is infinite: every operation has a next state, and none ends the run (R186). -/
def RunsForever (ops : Nat → HostOp) (s : State) : Prop :=
  ∀ k, NotEndedBefore ops s k ∧ ∃ t, runOps ops k s = .next t

end Sys2Proof.Machine
end

