-- ==== Sys2Proof/Certificates/Slice0/Obligations.lean ====
section
/-! DEFINITION. The statements about the model, each `def Obligations.<Name> : Prop`. A statement about an
instruction says that exec answers a next state, what that state holds, and what is unchanged in it. -/

open Sys2Proof Sys2Proof.Machine

namespace Sys2Proof.Claims

/-- exec answers a next state, and P holds of it. -/
def Gives (i : Instr) (s : State) (P : State → Prop) : Prop := ∃ t, exec i s = .next t ∧ P t

/-- The word's opcode and funct3 select this instruction (30_encoding.md R62, R73). -/
def Selects (op : BitVec 7) (f3 : BitVec 3) (mk : Word → Instr) : Prop :=
  ∀ w, opcode w = op → funct3 w = f3 → decode w = mk w

/-- The word's opcode, funct3 and funct7 select this instruction (R74). -/
def SelectsWithFunct7 (op : BitVec 7) (f3 : BitVec 3) (ok : BitVec 7 → Prop) (mk : Word → Instr) : Prop :=
  ∀ w, opcode w = op → funct3 w = f3 → ok (funct7 w) → decode w = mk w

/-- x[rd] reads v, unless rd is 0; every other register reads as before; x0 reads 0 (10_state.md R21,
R22). -/
def Wrote (s t : State) (rd : RegIdx) (v : Word) : Prop :=
  ∀ r : RegIdx, t.readReg r = if r = 0 then 0#32 else if r = rd then v else s.readReg r

/-- Every register reads as before. -/
def SameRegs (s t : State) : Prop := ∀ r : RegIdx, t.readReg r = s.readReg r

/-- Cycle counter, status and parameters are as before. -/
def SameControl (s t : State) : Prop :=
  t.cycles = s.cycles ∧ t.status = s.status ∧ t.params = s.params

/-- Memory as a whole (so every word of it) and the control state are as before. -/
def SameRest (s t : State) : Prop := t.mem = s.mem ∧ SameControl s t

/-- The frame of an instruction that writes rd and goes on to pc + 4. -/
def WroteAndNext (s : State) (rd : RegIdx) (v : Word) (t : State) : Prop :=
  Wrote s t rd v ∧ t.pc = s.pc + 4#32 ∧ SameRest s t

/-- The frame of an instruction that writes pc only. -/
def PcOnly (s : State) (target : Word) (t : State) : Prop :=
  t.pc = target ∧ SameRegs s t ∧ SameRest s t

/-- The integer value of an encoded immediate, as a 32-bit word (00_scope.md R12). -/
def extended {n : Nat} (imm : BitVec n) : Word := BitVec.ofInt 32 imm.toInt

/-- The index a load or store of base rs1 and offset off uses in s (20_memory.md R43, R44). -/
def indexOf (s : State) (rs1 : RegIdx) (off : BitVec 12) : Option Nat :=
  dataIndex s.params (s.readReg rs1 + extended off)

/-- The frame of a store at idx: that word becomes v, every other word reads as before, no register
changes, pc goes on. -/
def Stored (s : State) (idx : Nat) (v : Word) (t : State) : Prop :=
  (∀ k, t.mem.read k = if k = idx then v else s.mem.read k) ∧
    SameRegs s t ∧ t.pc = s.pc + 4#32 ∧ SameControl s t

/-- The five loads at this base and offset, run in s on a word m, each with the frame of a load: the low bits
of m, extended, go to rd (42_load_store.md R116 to R121). -/
def LoadsGive (s : State) (rd rs1 : RegIdx) (off : BitVec 12) (m : Word) : Prop :=
  Gives (.lb rd rs1 off) s (WroteAndNext s rd (extended (m.extractLsb' 0 8))) ∧
  Gives (.lh rd rs1 off) s (WroteAndNext s rd (extended (m.extractLsb' 0 16))) ∧
  Gives (.lw rd rs1 off) s (WroteAndNext s rd m) ∧
  Gives (.lbu rd rs1 off) s (WroteAndNext s rd (BitVec.ofNat 32 (m.toNat % 2 ^ 8))) ∧
  Gives (.lhu rd rs1 off) s (WroteAndNext s rd (BitVec.ofNat 32 (m.toNat % 2 ^ 16)))

/-- The three stores at this base and offset, each with the word it leaves over m at the data index: the low
bits of x[rs2] below the other bits of m (42_load_store.md R123 to R126). -/
def storesOver (s : State) (rs1 rs2 : RegIdx) (off : BitVec 12) (m : Word) : List (Instr × Word) :=
  [(.sb rs1 rs2 off, m.extractLsb' 8 24 ++ (s.readReg rs2).extractLsb' 0 8),
   (.sh rs1 rs2 off, m.extractLsb' 16 16 ++ (s.readReg rs2).extractLsb' 0 16),
   (.sw rs1 rs2 off, s.readReg rs2)]

/-- The instruction reads the register p stands for, as rs1 or rs2 (30_encoding.md R92). -/
abbrev Reads (c : AsmInstr) (p : Option RegIdx) : Prop := ∃ r ∈ c.srcs, p = some r

/-- What raising Fatal(r) leaves: the status changes and nothing else (00_scope.md R15). -/
def EntersFatal (r : FatalReason) (s t : State) : Prop := t = { s with status := .fatal r }

/-- 1 or 0. -/
def bit (p : Prop) [Decidable p] : Word := if p then 1#32 else 0#32

/-- The value an OP-IMM word of this funct3 writes, of x[rs1] and the extended immediate; funct3 001 and 101
write nothing (43_alu_immediate.md R129 to R134, R139). -/
def opImmValue (f3 : BitVec 3) (a i : Word) : Option Word :=
  if f3 = 0#3 then some (a + i)
  else if f3 = 2#3 then some (bit (a.toInt < i.toInt))
  else if f3 = 3#3 then some (bit (a.toNat < i.toNat))
  else if f3 = 4#3 then some (a ^^^ i)
  else if f3 = 6#3 then some (a ||| i)
  else if f3 = 7#3 then some (a &&& i)
  else none

/-- The rows named FATAL in the opcode table. -/
def isFatalRow : Instr → Bool
  | .fatalJalrFunct3 _ => true
  | .fatalBranchFunct3 _ => true
  | .fatalLoadFunct3 _ => true
  | .fatalStoreFunct3 _ => true
  | .fatalOpFunct7 _ => true
  | .fatalOpXor _ => true
  | .fatalMiscMem _ => true
  | .fatalSystem _ => true
  | .fatalInvalidOpcode _ => true
  | _ => false

/-- The illegal encodings and their reasons, as 30_encoding.md R76 lists them. -/
def illegalReason (w : Word) : Option FatalReason :=
  if w = 0#32 then none
  else if opcode w ∉ [0x37#7, 0x17#7, 0x6F#7, 0x67#7, 0x63#7, 0x03#7, 0x23#7, 0x13#7, 0x33#7] then
    some .invalidOpcode
  else if opcode w = 0x67#7 ∧ funct3 w ≠ 0#3 then some .invalidFunct3
  else if opcode w = 0x63#7 ∧ funct3 w ∈ [2#3, 3#3] then some .invalidFunct3
  else if opcode w = 0x03#7 ∧ funct3 w ∈ [3#3, 6#3, 7#3] then some .invalidFunct3
  else if opcode w = 0x23#7 ∧ 3 ≤ (funct3 w).toNat then some .invalidFunct3
  else if opcode w = 0x33#7 ∧ funct3 w = 4#3 then some .invalidFunct3
  else if opcode w = 0x33#7 ∧ funct3 w = 0#3 ∧ funct7 w ∉ [0x00#7, 0x20#7] then some .invalidFunct7
  else none

/-- The word is a LOAD or STORE whose effective address in s has bit 31 set (20_memory.md R43, R45). -/
def negativeAddress (s : State) (w : Word) : Prop :=
  (opcode w = 0x03#7 ∧ (s.readReg (rs1Field w) + extended (immI w)).getLsbD 31 = true) ∨
    (opcode w = 0x23#7 ∧ (s.readReg (rs1Field w) + extended (immS w)).getLsbD 31 = true)

/-- The status after a step from s, by the tests of 60_exceptions.md R162 in their order. -/
def StatusByOrder (s : State) (st : RunStatus) : Prop :=
  let w := s.mem.read (s.pc.toNat / 4)
  if s.params.memWords ≤ s.pc.toNat / 4 then st = .fatal .fetchOutOfBounds
  else if w = 0#32 then st = .halted
  else
    match illegalReason w with
    | some r => st = .fatal r
    | none =>
      (negativeAddress s w ∧ s.params.negEaPolicy = .fatal → st = .fatal .dataAddressNegative) ∧
        (¬ (negativeAddress s w ∧ s.params.negEaPolicy = .fatal) → st = .running)

/-- The status is not Fatal: a step exists. -/
def NotFatal (s : State) : Prop := ∀ r, s.status ≠ .fatal r

/-- The comparison of a branch holds in s (41_control_transfer.md R108 to R113). -/
def taken (s : State) : Instr → Bool
  | .beq rs1 rs2 _ => s.readReg rs1 = s.readReg rs2
  | .bne rs1 rs2 _ => s.readReg rs1 ≠ s.readReg rs2
  | .blt rs1 rs2 _ => (s.readReg rs1).toInt < (s.readReg rs2).toInt
  | .bge rs1 rs2 _ => (s.readReg rs2).toInt ≤ (s.readReg rs1).toInt
  | .bltu rs1 rs2 _ => (s.readReg rs1).toNat < (s.readReg rs2).toNat
  | .bgeu rs1 rs2 _ => (s.readReg rs2).toNat ≤ (s.readReg rs1).toNat
  | _ => false

/-- The pc an instruction goes to, by the table of 10_state.md R25. -/
def newPc (s : State) (i : Instr) : Word :=
  match i with
  | .jal _ off => (s.pc + extended off) &&& 0xFFFFFFFE#32
  | .jalr _ _ off => (s.pc + extended off) &&& 0xFFFFFFFE#32
  | .beq _ _ off | .bne _ _ off | .blt _ _ off | .bge _ _ off | .bltu _ _ off | .bgeu _ _ off =>
    if taken s i then s.pc + extended off else s.pc + 4#32
  | .srl _ _ _ | .sra _ _ _ _ => if s.params.srxAdvancesPc then s.pc + 4#32 else s.pc
  | .halt => s.pc
  | _ => s.pc + 4#32

/-- Whether a load or store of this base and offset raises Fatal in s (20_memory.md R45). -/
def addressFatal (s : State) (rs1 : RegIdx) (off : BitVec 12) : Option FatalReason :=
  if (s.readReg rs1 + extended off).getLsbD 31 = true ∧ s.params.negEaPolicy = .fatal then
    some .dataAddressNegative
  else none

/-- The fatal outcome of an instruction in s, none where it has none (60_exceptions.md R160). -/
def fatalOutcome (s : State) : Instr → Option FatalReason
  | .lb _ rs1 off | .lh _ rs1 off | .lw _ rs1 off | .lbu _ rs1 off | .lhu _ rs1 off =>
    addressFatal s rs1 off
  | .sb rs1 _ off | .sh rs1 _ off | .sw rs1 _ off => addressFatal s rs1 off
  | .fatalJalrFunct3 _ | .fatalBranchFunct3 _ | .fatalLoadFunct3 _ | .fatalStoreFunct3 _ | .fatalOpXor _ =>
    some .invalidFunct3
  | .fatalOpFunct7 _ => some .invalidFunct7
  | .fatalMiscMem _ | .fatalSystem _ | .fatalInvalidOpcode _ => some .invalidOpcode
  | _ => none

/-- The register an instruction writes: rd of LUI, AUIPC, JAL, JALR, LOAD, OP-IMM without the
shift-immediates, and OP without its fatal words (10_state.md R23). -/
def destination : Instr → Option RegIdx
  | .lui rd _ | .auipc rd _ | .jal rd _ | .jalr rd _ _ => some rd
  | .lb rd _ _ | .lh rd _ _ | .lw rd _ _ | .lbu rd _ _ | .lhu rd _ _ => some rd
  | .addi rd _ _ | .slti rd _ _ | .sltiu rd _ _ | .xori rd _ _ | .ori rd _ _ | .andi rd _ _ => some rd
  | .add rd _ _ | .sub rd _ _ | .sll rd _ _ _ | .slt rd _ _ _ | .sltu rd _ _ _ | .srl rd _ _ => some rd
  | .sra rd _ _ _ | .or rd _ _ _ | .and rd _ _ _ => some rd
  | _ => none

/-- The instruction is SRL or SRA with these registers. -/
def IsShiftRight (i : Instr) (rd rs1 rs2 : RegIdx) : Prop :=
  i = .srl rd rs1 rs2 ∨ ∃ f7, i = .sra rd rs1 rs2 f7

end Sys2Proof.Claims

open Sys2Proof.Claims

/-! ### Encoding -/

/-- Words written out from the spec's encodings decode to the instructions they stand for (the examples of
40_upper_immediate.md to 45_step_halt_invalid.md). -/
def Obligations.SampleWordsDecode : Prop :=
  decode 0x123452B7#32 = .lui 5 0x12345#20 ∧
  decode 0x00001317#32 = .auipc 6 1#20 ∧
  decode 0xFFDFF06F#32 = .jal 0 (-4 : BitVec 21) ∧
  decode 0x00808167#32 = .jalr 2 1 8#12 ∧
  decode 0xFE029CE3#32 = .bne 5 0 (-8 : BitVec 13) ∧
  decode 0xFFC0A283#32 = .lw 5 1 (-4 : BitVec 12) ∧
  decode 0xFE20AE23#32 = .sw 1 2 (-4 : BitVec 12) ∧
  decode 0xFFF00093#32 = .addi 1 0 (-1 : BitVec 12) ∧
  decode 0x4030D293#32 = .srai 5 1 3#5 ∧
  decode 0x40730533#32 = .sub 10 6 7 ∧
  decode 0x00000000#32 = .halt ∧
  decode 0x00734533#32 = .fatalOpXor 0x00734533#32

/-- Decoding an encoded well-formed instruction gives it back, with every operand, for all 47 rows. -/
def Obligations.DecodeOfEncode : Prop :=
  ∀ i : Instr, i.wellFormed = true → decode (encode i) = i

/-- Encoding a decoded word gives the word back, for all 2^32 words: decoding drops no bit. That the terms keep
the bits no instruction examines (R75) is the model's choice (log entry 18). -/
def Obligations.EncodeOfDecode : Prop := ∀ w : Word, encode (decode w) = w

/-- The decoder answers with well-formed instructions only. -/
def Obligations.DecodedIsWellFormed : Prop := ∀ w : Word, (decode w).wellFormed = true

/-- The machine-readable table in first-match order names the instruction the decoder gives, on every
word (R97). -/
def Obligations.DecodeAgreesWithOpcodeTable : Prop :=
  ∀ w : Word, (firstMatch w).map OpcodeRow.name = some (decode w).mnemonic

/-- The illegal encodings are exactly the words R76 lists, and each ends in the reason it gives. -/
def Obligations.IllegalWordsAreTheListed : Prop :=
  ∀ w : Word,
    (isFatalRow (decode w) = true ↔ illegalReason w ≠ none) ∧
    ∀ r, illegalReason w = some r → ∀ s, Gives (decode w) s (EntersFatal r s)

/-- A word whose low bits are not 11 raises Fatal(InvalidOpcode), unless it is the all-zero word: no length
decoding exists (R80). -/
def Obligations.LowBitsAreOpcodeBits : Prop :=
  ∀ w : Word, w ≠ 0#32 → w.extractLsb' 0 2 ≠ 3#2 →
    decode w = .fatalInvalidOpcode w ∧ ∀ s, Gives (decode w) s (EntersFatal .invalidOpcode s)

/-- Every funct3 of OP-IMM is recognized and no OP-IMM word is fatal: funct3 001 and 101 only advance pc,
the others write their value to rd and advance (R139). -/
def Obligations.OpImmWordsAreNeverFatal : Prop :=
  ∀ w s, opcode w = 0x13#7 →
    Gives (decode w) s (fun t =>
      match opImmValue (funct3 w) (s.readReg (rs1Field w)) (extended (immI w)) with
      | some v => WroteAndNext s (rdField w) v t
      | none => PcOnly s (s.pc + 4#32) t)

/-- The immediates as integers of the word's bits (R66 to R70). -/
def Obligations.ImmediatesFromWordBits : Prop :=
  ∀ w : Word,
    (sext12 (immI w)).toInt = w.toInt / 2 ^ 20 ∧
    (sext12 (immS w)).toInt = w.toInt / 2 ^ 25 * 32 + w.toNat / 2 ^ 7 % 32 ∧
    (sext13 (immB w)).toInt = w.toInt / 2 ^ 31 * 4096 + w.toNat / 2 ^ 7 % 2 * 2048 +
      w.toNat / 2 ^ 25 % 64 * 32 + w.toNat / 2 ^ 8 % 16 * 2 ∧
    upperImm (immU w) = w &&& 0xFFFFF000#32 ∧
    (sext21 (immJ w)).toInt = w.toInt / 2 ^ 31 * 1048576 + w.toNat / 2 ^ 12 % 256 * 4096 +
      w.toNat / 2 ^ 20 % 2 * 2048 + w.toNat / 2 ^ 21 % 1024 * 2

/-! ### Upper immediates and control transfer -/

/-- LUI: x[rd] <- uimm, pc + 4, nothing else (R100). -/
def Obligations.LuiWritesUpperImmediate : Prop :=
  ∀ w s, opcode w = 0x37#7 → decode w = .lui (rdField w) (immU w) ∧
    Gives (.lui (rdField w) (immU w)) s (WroteAndNext s (rdField w) (w &&& 0xFFFFF000#32))

/-- AUIPC: x[rd] <- uimm + pc, pc the instruction's own, pc + 4, nothing else (R101). -/
def Obligations.AuipcAddsPc : Prop :=
  ∀ w s, opcode w = 0x17#7 → decode w = .auipc (rdField w) (immU w) ∧
    Gives (.auipc (rdField w) (immU w)) s (WroteAndNext s (rdField w) ((w &&& 0xFFFFF000#32) + s.pc))

/-- JAL: x[rd] <- pc + 4, pc <- (pc + jimm) & ~1, nothing else; the assembler has no mnemonic of that
opcode (R105; R91). -/
def Obligations.JalLinksAndJumps : Prop :=
  (∀ w, opcode w = 0x6F#7 → decode w = .jal (rdField w) (immJ w)) ∧
  (∀ rd off s, Gives (.jal rd off) s (fun t =>
    Wrote s t rd (s.pc + 4#32) ∧ t.pc = (s.pc + extended off) &&& 0xFFFFFFFE#32 ∧ SameRest s t)) ∧
  ∀ m op f3, asmFormat m = .ok (.i op f3) → op ≠ 0x6F#7

/-- JALR: x[rd] <- pc + 4, pc <- (pc + iimm) & ~1 whatever rs1 and the registers hold; funct3 other than
000 is fatal (R106). -/
def Obligations.JalrIsPcRelative : Prop :=
  Selects 0x67#7 0#3 (fun w => .jalr (rdField w) (rs1Field w) (immI w)) ∧
  (∀ rd rs1 off s, Gives (.jalr rd rs1 off) s (fun t =>
    Wrote s t rd (s.pc + 4#32) ∧ t.pc = (s.pc + extended off) &&& 0xFFFFFFFE#32 ∧ SameRest s t)) ∧
  ∀ w s, opcode w = 0x67#7 → funct3 w ≠ 0#3 → Gives (decode w) s (EntersFatal .invalidFunct3 s)

/-- The six branches and their encodings: pc <- pc + bimm when the comparison holds, else pc + 4; no
register and no memory is written (R107 to R113). -/
def Obligations.BranchesCompareAndJump : Prop :=
  Selects 0x63#7 0b000#3 (fun w => .beq (rs1Field w) (rs2Field w) (immB w)) ∧
  Selects 0x63#7 0b001#3 (fun w => .bne (rs1Field w) (rs2Field w) (immB w)) ∧
  Selects 0x63#7 0b100#3 (fun w => .blt (rs1Field w) (rs2Field w) (immB w)) ∧
  Selects 0x63#7 0b101#3 (fun w => .bge (rs1Field w) (rs2Field w) (immB w)) ∧
  Selects 0x63#7 0b110#3 (fun w => .bltu (rs1Field w) (rs2Field w) (immB w)) ∧
  Selects 0x63#7 0b111#3 (fun w => .bgeu (rs1Field w) (rs2Field w) (immB w)) ∧
  ∀ (rs1 rs2 : RegIdx) (off : BitVec 13) (s : State),
    let a := s.readReg rs1
    let b := s.readReg rs2
    let go := fun (p : Prop) (t : State) =>
      (p → PcOnly s (s.pc + extended off) t) ∧ (¬ p → PcOnly s (s.pc + 4#32) t)
    Gives (.beq rs1 rs2 off) s (go (a = b)) ∧
    Gives (.bne rs1 rs2 off) s (go (a ≠ b)) ∧
    Gives (.blt rs1 rs2 off) s (go (a.toInt < b.toInt)) ∧
    Gives (.bge rs1 rs2 off) s (go (¬ a.toInt < b.toInt)) ∧
    Gives (.bltu rs1 rs2 off) s (go (a.toNat < b.toNat)) ∧
    Gives (.bgeu rs1 rs2 off) s (go (¬ a.toNat < b.toNat))

/-! ### Loads and stores -/

/-- dataIndex(EA), for a capacity of at least 1: bit 31 clear, or one of the three policies (R44, R45). That
the two wraps agree when 2^32 and 2^64 leave the same remainder is the spec's own inference (R45 [derived]). -/
def Obligations.DataIndexFollowsPolicy : Prop :=
  ∀ (p : Params) (ea : Word), 1 ≤ p.memWords →
    (ea.getLsbD 31 = false → dataIndex p ea = some (ea.toNat % p.memWords)) ∧
    (ea.getLsbD 31 = true →
      (p.negEaPolicy = .fatal → dataIndex p ea = none) ∧
      (p.negEaPolicy = .unsignedMod32 → dataIndex p ea = some (ea.toNat % p.memWords)) ∧
      (p.negEaPolicy = .signExtMod64 →
        ∃ k, dataIndex p ea = some k ∧ (k : Int) = (2 ^ 64 + ea.toInt) % p.memWords) ∧
      (p.negEaPolicy = .signExtMod64 → 2 ^ 32 % p.memWords = 2 ^ 64 % p.memWords →
        dataIndex p ea = some (ea.toNat % p.memWords))) ∧
    ∀ k, dataIndex p ea = some k → k < p.memWords

/-- The five loads and their encodings, wherever the data index exists: the low bits of M[didx], extended,
go to rd; pc + 4; memory and everything else as before (R116 to R121). -/
def Obligations.LoadsReadIndexedWord : Prop :=
  Selects 0x03#7 0b000#3 (fun w => .lb (rdField w) (rs1Field w) (immI w)) ∧
  Selects 0x03#7 0b001#3 (fun w => .lh (rdField w) (rs1Field w) (immI w)) ∧
  Selects 0x03#7 0b010#3 (fun w => .lw (rdField w) (rs1Field w) (immI w)) ∧
  Selects 0x03#7 0b100#3 (fun w => .lbu (rdField w) (rs1Field w) (immI w)) ∧
  Selects 0x03#7 0b101#3 (fun w => .lhu (rdField w) (rs1Field w) (immI w)) ∧
  ∀ (rd rs1 : RegIdx) (off : BitVec 12) (s : State) (idx : Nat), indexOf s rs1 off = some idx →
    LoadsGive s rd rs1 off (s.mem.read idx)

/-- The three stores and their encodings, wherever the data index exists: M[didx] takes the low bits of
x[rs2] and keeps its other bits; every other word, every register and the rest are as before; pc + 4 (R123 to
R126). -/
def Obligations.StoresMergeIntoIndexedWord : Prop :=
  Selects 0x23#7 0b000#3 (fun w => .sb (rs1Field w) (rs2Field w) (immS w)) ∧
  Selects 0x23#7 0b001#3 (fun w => .sh (rs1Field w) (rs2Field w) (immS w)) ∧
  Selects 0x23#7 0b010#3 (fun w => .sw (rs1Field w) (rs2Field w) (immS w)) ∧
  ∀ (rs1 rs2 : RegIdx) (off : BitVec 12) (s : State) (idx : Nat), indexOf s rs1 off = some idx →
    ∀ p ∈ storesOver s rs1 rs2 off (s.mem.read idx), Gives p.1 s (Stored s idx p.2)

/-- Every load and store at a negative address under NEG_EA_POLICY = Fatal enters
Fatal(DataAddressNegative) with no other effect, rd = 0 or not (R45). -/
def Obligations.NegativeAddressIsFatal : Prop :=
  ∀ (rd rs1 rs2 : RegIdx) (off : BitVec 12) (s : State),
    (s.readReg rs1 + extended off).getLsbD 31 = true → s.params.negEaPolicy = .fatal →
    ∀ i ∈ [Instr.lb rd rs1 off, .lh rd rs1 off, .lw rd rs1 off, .lbu rd rs1 off, .lhu rd rs1 off,
        .sb rs1 rs2 off, .sh rs1 rs2 off, .sw rs1 rs2 off],
      Gives i s (EntersFatal .dataAddressNegative s)

/-- A load sees the last store to its word index: after SB, SH or SW, each of the five loads of the index
stored to reads the merged word the store left, and each load of another index reads the word that was there
before (R46, R47, R53). -/
def Obligations.LoadSeesLatestStore : Prop :=
  ∀ (s t : State) (rs1 rs2 : RegIdx) (off : BitVec 12) (idx : Nat), indexOf s rs1 off = some idx →
    ∀ p ∈ storesOver s rs1 rs2 off (s.mem.read idx), exec p.1 s = .next t →
      ∀ (rd base : RegIdx) (o : BitVec 12) (j : Nat), indexOf t base o = some j →
        LoadsGive t rd base o (if j = idx then p.2 else s.mem.read j)

/-- A store with data index i changes the instruction fetched at every pc with u(pc) div 4 = i to the merged
word it leaves there, and at no other pc (R56). -/
def Obligations.StoreChangesFetchedWord : Prop :=
  ∀ (s t : State) (rs1 rs2 : RegIdx) (off : BitVec 12) (idx : Nat), indexOf s rs1 off = some idx →
    ∀ p ∈ storesOver s rs1 rs2 off (s.mem.read idx), exec p.1 s = .next t →
    ∀ pc : Word, ({ t with pc := pc } : State).fetch =
      if pc.toNat / 4 = idx ∧ idx < s.params.memWords then some p.2
      else ({ s with pc := pc } : State).fetch

/-! ### The ALU -/

/-- The six register-immediate operations and their encodings, on integers (R128 to R134). -/
def Obligations.AluImmediateResults : Prop :=
  Selects 0x13#7 0b000#3 (fun w => .addi (rdField w) (rs1Field w) (immI w)) ∧
  Selects 0x13#7 0b010#3 (fun w => .slti (rdField w) (rs1Field w) (immI w)) ∧
  Selects 0x13#7 0b011#3 (fun w => .sltiu (rdField w) (rs1Field w) (immI w)) ∧
  Selects 0x13#7 0b100#3 (fun w => .xori (rdField w) (rs1Field w) (immI w)) ∧
  Selects 0x13#7 0b110#3 (fun w => .ori (rdField w) (rs1Field w) (immI w)) ∧
  Selects 0x13#7 0b111#3 (fun w => .andi (rdField w) (rs1Field w) (immI w)) ∧
  ∀ (rd rs1 : RegIdx) (imm : BitVec 12) (s : State),
    let a := s.readReg rs1
    Gives (.addi rd rs1 imm) s (WroteAndNext s rd (BitVec.ofInt 32 (a.toInt + imm.toInt))) ∧
    Gives (.slti rd rs1 imm) s (WroteAndNext s rd (bit (a.toInt < imm.toInt))) ∧
    Gives (.sltiu rd rs1 imm) s
      (WroteAndNext s rd (bit ((a.toNat : Int) < imm.toInt % 2 ^ 32))) ∧
    Gives (.xori rd rs1 imm) s (WroteAndNext s rd (a ^^^ extended imm)) ∧
    Gives (.ori rd rs1 imm) s (WroteAndNext s rd (a ||| extended imm)) ∧
    Gives (.andi rd rs1 imm) s (WroteAndNext s rd (a &&& extended imm))

/-- The shift-immediates and their encodings: they do nothing but advance pc, whatever their fields hold
(R135 to R138). -/
def Obligations.ShiftImmediatesOnlyAdvance : Prop :=
  Selects 0x13#7 0b001#3 (fun w => .slli (rdField w) (rs1Field w) (immI w)) ∧
  SelectsWithFunct7 0x13#7 0b101#3 (· = 0x00#7) (fun w => .srli (rdField w) (rs1Field w) (shamtField w)) ∧
  SelectsWithFunct7 0x13#7 0b101#3 (· = 0x20#7) (fun w => .srai (rdField w) (rs1Field w) (shamtField w)) ∧
  SelectsWithFunct7 0x13#7 0b101#3 (fun f => f ≠ 0x00#7 ∧ f ≠ 0x20#7)
    (fun w => .srxi (rdField w) (rs1Field w) (shamtField w) (funct7 w)) ∧
  ∀ (rd rs1 : RegIdx) (imm : BitVec 12) (sh : BitVec 5) (f7 : BitVec 7) (s : State),
    ∀ i ∈ [Instr.slli rd rs1 imm, .srli rd rs1 sh, .srai rd rs1 sh, .srxi rd rs1 sh f7],
      Gives i s (PcOnly s (s.pc + 4#32))

/-- ADD, SUB, SLL, SLT, SLTU, OR and AND and their encodings, on integers; funct7 is examined for ADD and
SUB only (R140 to R146, R151, R152). -/
def Obligations.AluRegisterResults : Prop :=
  SelectsWithFunct7 0x33#7 0b000#3 (· = 0x00#7) (fun w => .add (rdField w) (rs1Field w) (rs2Field w)) ∧
  SelectsWithFunct7 0x33#7 0b000#3 (· = 0x20#7) (fun w => .sub (rdField w) (rs1Field w) (rs2Field w)) ∧
  Selects 0x33#7 0b001#3 (fun w => .sll (rdField w) (rs1Field w) (rs2Field w) (funct7 w)) ∧
  Selects 0x33#7 0b010#3 (fun w => .slt (rdField w) (rs1Field w) (rs2Field w) (funct7 w)) ∧
  Selects 0x33#7 0b011#3 (fun w => .sltu (rdField w) (rs1Field w) (rs2Field w) (funct7 w)) ∧
  Selects 0x33#7 0b110#3 (fun w => .or (rdField w) (rs1Field w) (rs2Field w) (funct7 w)) ∧
  Selects 0x33#7 0b111#3 (fun w => .and (rdField w) (rs1Field w) (rs2Field w) (funct7 w)) ∧
  ∀ (rd rs1 rs2 : RegIdx) (f7 : BitVec 7) (s : State),
    let a := s.readReg rs1
    let b := s.readReg rs2
    Gives (.add rd rs1 rs2) s (WroteAndNext s rd (BitVec.ofInt 32 (a.toInt + b.toInt))) ∧
    Gives (.sub rd rs1 rs2) s (WroteAndNext s rd (BitVec.ofInt 32 (a.toInt - b.toInt))) ∧
    Gives (.sll rd rs1 rs2 f7) s
      (WroteAndNext s rd (BitVec.ofNat 32 (a.toNat * 2 ^ (b.toNat % 32)))) ∧
    Gives (.slt rd rs1 rs2 f7) s (WroteAndNext s rd (bit (a.toInt < b.toInt))) ∧
    Gives (.sltu rd rs1 rs2 f7) s (WroteAndNext s rd (bit (a.toNat < b.toNat))) ∧
    Gives (.or rd rs1 rs2 f7) s (WroteAndNext s rd (a ||| b)) ∧
    Gives (.and rd rs1 rs2 f7) s (WroteAndNext s rd (a &&& b))

/-- SRL and SRA and their encodings: they write rd and advance pc exactly where SRX_ADVANCES_PC says so
(R148 to R150). -/
def Obligations.ShiftRightWritesWithoutAdvance : Prop :=
  SelectsWithFunct7 0x33#7 0b101#3 (· = 0x00#7) (fun w => .srl (rdField w) (rs1Field w) (rs2Field w)) ∧
  SelectsWithFunct7 0x33#7 0b101#3 (· ≠ 0x00#7)
    (fun w => .sra (rdField w) (rs1Field w) (rs2Field w) (funct7 w)) ∧
  ∀ (rd rs1 rs2 : RegIdx) (f7 : BitVec 7) (s : State),
    let a := s.readReg rs1
    let b := s.readReg rs2
    let done := fun (v : Word) (t : State) =>
      Wrote s t rd v ∧ SameRest s t ∧
      (s.params.srxAdvancesPc = false → t.pc = s.pc) ∧
      (s.params.srxAdvancesPc = true → t.pc = s.pc + 4#32)
    Gives (.srl rd rs1 rs2) s (done (BitVec.ofNat 32 (a.toNat / 2 ^ (b.toNat % 32)))) ∧
    Gives (.sra rd rs1 rs2 f7) s (done (BitVec.ofInt 32 (a.toInt / 2 ^ (b.toNat % 32))))

/-- With SRX_ADVANCES_PC false, a block at an SRL or SRA executes it for ever: after every number of
steps it is Running at the same pc, with memory as before, and only rd has changed; when rd is neither
source, rd holds after every step what it holds after the first (R148). -/
def Obligations.ShiftRightNeverLeavesItsWord : Prop :=
  ∀ (s : State) (w : Word) (rd rs1 rs2 : RegIdx), NotFatal s → s.fetch = some w →
    IsShiftRight (decode w) rd rs1 rs2 → s.params.srxAdvancesPc = false →
    ∀ n, ∃ t, runFor (n + 1) s = .next t ∧ t.pc = s.pc ∧ t.status = .running ∧ t.mem = s.mem ∧
      t.cycles = s.cycles + (n + 1) ∧ (∀ r, r ≠ rd → t.readReg r = s.readReg r) ∧
      (rd ≠ rs1 → rd ≠ rs2 → ∃ u, step s = .next u ∧ SameRegs u t)

/-! ### Halt, fatal words and the step -/

/-- The all-zero word, and no other, is the halt word (R79); it sets status to Halted, and pc, registers and
memory stay; cycles counts its fetch (R154). -/
def Obligations.HaltOnlySetsStatus : Prop :=
  (∀ w : Word, decode w = .halt ↔ w = 0#32) ∧
  (∀ s, Gives .halt s (fun t => t = { s with status := .halted })) ∧
  ∀ s, NotFatal s → s.fetch = some 0#32 →
    step s = .next { s with status := .halted, cycles := s.cycles + 1 }

/-- Each of the nine FATAL rows enters Fatal with its reason and no other effect, for every word it
holds. -/
def Obligations.FatalRowsEnterFatal : Prop :=
  ∀ (w : Word) (s : State),
    (∀ i ∈ [Instr.fatalJalrFunct3 w, .fatalBranchFunct3 w, .fatalLoadFunct3 w, .fatalStoreFunct3 w,
        .fatalOpXor w], Gives i s (EntersFatal .invalidFunct3 s)) ∧
    Gives (.fatalOpFunct7 w) s (EntersFatal .invalidFunct7 s) ∧
    ∀ i ∈ [Instr.fatalMiscMem w, .fatalSystem w, .fatalInvalidOpcode w],
      Gives i s (EntersFatal .invalidOpcode s)

/-- FENCE words and SYSTEM words are InvalidOpcode (R156, R157). -/
def Obligations.MiscMemAndSystemAreInvalid : Prop :=
  ∀ w s, opcode w = 0x0F#7 ∨ opcode w = 0x73#7 →
    Gives (decode w) s (EntersFatal .invalidOpcode s)

/-- A step runs the decoded instruction: from any status but Fatal, with the fetched word w, a step is
exec of decode w in the state with cycles one higher and status Running. Without a word at pc it raises
Fatal(FetchOutOfBounds); in Fatal no step exists (R153). -/
def Obligations.StepRunsDecodedInstruction : Prop :=
  (∀ s w, NotFatal s → s.fetch = some w →
    step s = exec (decode w) { s with cycles := s.cycles + 1, status := .running }) ∧
  (∀ s, NotFatal s → s.fetch = none → step s = .next { s with status := .fatal .fetchOutOfBounds }) ∧
  ∀ s r, s.status = .fatal r → step s = .fault (.terminated r)

/-- Fetch reads M[u(pc) div 4], the two low bits of pc discarded; out of bounds the step enters
Fatal(FetchOutOfBounds) with cycles not incremented (R41, R42, R160). -/
def Obligations.FetchByWordIndex : Prop :=
  ∀ s : State,
    (s.pc.toNat / 4 < s.params.memWords → s.fetch = some (s.mem.read (s.pc.toNat / 4))) ∧
    (s.params.memWords ≤ s.pc.toNat / 4 → s.fetch = none ∧
      (NotFatal s → step s = .next { s with status := .fatal .fetchOutOfBounds }))

/-- The word of an instruction put at the fetch index is the next instruction run. -/
def Obligations.PlacedWordRunsNext : Prop :=
  ∀ (s : State) (i : Instr), NotFatal s → s.pc.toNat / 4 < s.params.memWords → i.wellFormed = true →
    ∃ u, step (s.withFetchWord 32 (encode i).toNat) = exec i u ∧ SameRegs s u ∧ u.pc = s.pc ∧
      u.params = s.params ∧ u.cycles = s.cycles + 1 ∧
      ∀ k, k ≠ s.pc.toNat / 4 → u.mem.read k = s.mem.read k

/-- A step exists exactly when the status is not Fatal, and then it answers a next state: no step is
refused, and no step other than one asked for in Fatal stops (R28, R184). -/
def Obligations.StepExistsUnlessFatal : Prop :=
  (∀ s, (∃ t, step s = .next t) ↔ NotFatal s) ∧
  (∀ s f, step s ≠ .refused f) ∧
  ∀ (s : State) r off ws, s.status = .fatal r → s.load off ws = .fault (.terminated r)

/-- The status after a step is the one the tests of R162 give, in their order; the first comes before
cycles is incremented. -/
def Obligations.StatusFollowsTestOrder : Prop :=
  ∀ s t, step s = .next t → StatusByOrder s t.status ∧
    (s.params.memWords ≤ s.pc.toNat / 4 → t.cycles = s.cycles)

/-- A step that ends fatal writes no register, no memory word and no pc, and its cycles count the fetch
unless the fetch itself was out of bounds (R159, R161). -/
def Obligations.FatalStepIsPrecise : Prop :=
  ∀ s t r, step s = .next t → t.status = .fatal r →
    t.pc = s.pc ∧ t.regs = s.regs ∧ t.mem = s.mem ∧ t.params = s.params ∧
    t.cycles = if r = .fetchOutOfBounds then s.cycles else s.cycles + 1

/-- A step adds exactly one to cycles when its fetch is in bounds and nothing otherwise (R27). -/
def Obligations.CyclesCountFetches : Prop :=
  ∀ s t, step s = .next t →
    t.cycles = s.cycles + if s.pc.toNat / 4 < s.params.memWords then 1 else 0

/-- Nothing reads the cycle counter: two states that differ only in it step alike (R27, R168). -/
def Obligations.CyclesInfluenceNothing : Prop :=
  ∀ s t (k : Nat), step s = .next t →
    step { s with cycles := s.cycles + k } = .next { t with cycles := t.cycles + k }

/-- A halted block stays halted: every number of steps at the all-zero word adds that number to cycles and
changes nothing else (R155). -/
def Obligations.HaltRepeats : Prop :=
  ∀ s, NotFatal s → s.fetch = some 0#32 →
    ∀ n, runFor (n + 1) s = .next { s with status := .halted, cycles := s.cycles + (n + 1) }

/-- Halted is not sticky: a load of one word onto the halting word index makes the next step execute that
word (R155, R183). -/
def Obligations.LoadResumesHaltedBlock : Prop :=
  ∀ s w, s.status = .halted → s.pc.toNat / 4 < s.params.memWords →
    ∃ t, s.load (s.pc.toNat / 4) [w] = .next t ∧ t.pc = s.pc ∧ SameRegs s t ∧ SameControl s t ∧
      step t = exec (decode w) { t with cycles := s.cycles + 1, status := .running }

/-! ### Whole-machine rules -/

/-- Every step keeps the state legal: memory in canonical form within the capacity, the capacity at least
1, the entry of x0 zero. -/
def Obligations.StepKeepsInv : Prop := ∀ s t, s.Inv → step s = .next t → t.Inv

/-- State.reset is a legal state. -/
def Obligations.ResetHasInv : Prop := State.reset.Inv

/-- The host operations keep the state legal: construction with a capacity of at least 1, and a load. -/
def Obligations.HostOperationsKeepInv : Prop :=
  (∀ p r, 1 ≤ p.memWords → (State.construct p r).Inv) ∧
  ∀ (s t : State) off ws, s.Inv → s.load off ws = .next t → t.Inv

/-- x0 reads 0 in every state, by every read and in what the host observes (R21). -/
def Obligations.RegisterZeroReadsZero : Prop :=
  ∀ s : State, s.readReg 0 = 0#32 ∧ s.observe.regs[0]? = some 0#32 ∧
    ∀ v, s.writeReg 0 v = s

/-- An even pc stays even: jumps clear bit 0, branch offsets of decoded words are even, and pc + 4 keeps
it (R26, R104). -/
def Obligations.EvenPcStaysEven : Prop :=
  ∀ s t, s.pc.toNat % 2 = 0 → step s = .next t → t.pc.toNat % 2 = 0

/-- No step and no load changes the capacity (R58), nor NEG_EA_POLICY or SRX_ADVANCES_PC; that these two
stay is the model's choice (log entry 9). -/
def Obligations.CapacityNeverChanges : Prop :=
  (∀ s t, step s = .next t → t.params = s.params) ∧
  ∀ (s t : State) off ws, s.load off ws = .next t → t.params = s.params

/-- A step changes memory only when the fetched word is a STORE, and never a register when it is a STORE
or a BRANCH (R23, R53). -/
def Obligations.OnlyStoresWriteMemory : Prop :=
  ∀ s t w, s.fetch = some w → step s = .next t →
    (opcode w ≠ 0x23#7 → t.mem = s.mem) ∧
    (opcode w = 0x23#7 ∨ opcode w = 0x63#7 → t.regs = s.regs)

/-- How each instruction moves pc: a fatal outcome leaves the whole state but the status, and every other
instruction goes to the pc of its class (R25). -/
def Obligations.PcFollowsInstructionClass : Prop :=
  ∀ i s, Gives i s (fun t =>
    match fatalOutcome s i with
    | some r => EntersFatal r s t
    | none => t.pc = newPc s i)

/-- After exec, a register other than the instruction's rd reads as before; BRANCH, STORE, the
shift-immediates, the halt word and the fatal words have none (R23). -/
def Obligations.OnlyDestinationIsWritten : Prop :=
  ∀ i s t, exec i s = .next t → ∀ r, destination i ≠ some r → t.readReg r = s.readReg r

/-- The pc after a step depends on the registers only through a branch's comparison and a negative
address: for a word of another class, two states that agree on pc, memory, parameters and status go to
the same pc (R106, R115). -/
def Obligations.PcIndependentOfRegisters : Prop :=
  ∀ (s t u : State) (regs : Vector Word 32) (w : Word), s.fetch = some w →
    opcode w ∉ [0x63#7, 0x03#7, 0x23#7] →
    step s = .next t → step { s with regs := regs } = .next u → u.pc = t.pc ∧ u.status = t.status

/-- A self-jump runs for ever and never halts, at an odd pc too: clearing bit 0 keeps the word index
(R105, R186). -/
def Obligations.SelfJumpRunsForever : Prop :=
  ∀ (s : State) (rd : RegIdx), NotFatal s → s.fetch = some (encode (.jal rd 0#21)) →
    RunsForever stepsOnly s

/-- Every run, a sequence of steps and loads (log entry 20) from a state that is not Fatal, ends well, ends
badly, or is infinite, and no two of the three; the operation at which it ends is unique (R186). That a run
which ended well does not end badly later is the model's choice (log entry 26). -/
def Obligations.RunEndsInExactlyOneWay : Prop :=
  ∀ (ops : Nat → HostOp) (s : State), NotFatal s →
    ((∃ k, EndsWellAt ops s k) ∨ (∃ k r, EndsBadlyAt ops s k r) ∨ RunsForever ops s) ∧
    (∀ k j, EndsWellAt ops s k → EndsWellAt ops s j → k = j) ∧
    (∀ k j r q, EndsBadlyAt ops s k r → EndsBadlyAt ops s j q → k = j ∧ r = q) ∧
    (∀ k j r, ¬ (EndsWellAt ops s k ∧ EndsBadlyAt ops s j r)) ∧
    (RunsForever ops s → (∀ k, ¬ EndsWellAt ops s k) ∧ ∀ k r, ¬ EndsBadlyAt ops s k r)

/-! ### Host operations -/

/-- Reset, for every parameter: x0 = 0, x2 = SP_RESET, the other registers INIT_REGS, M = INIT_MEM, pc =
PC_RESET, cycles 0, status Running (R35, R180). That words past the end of a shorter INIT_MEM list are 0 is the
model's choice (log entry 5). -/
def Obligations.ConstructionSetsEveryField : Prop :=
  ∀ (p : Params) (r : ResetParams),
    let s := State.construct p r
    s.params = p ∧ s.pc = r.pcReset ∧ s.cycles = 0 ∧ s.status = .running ∧
    s.readReg 0 = 0#32 ∧ s.readReg 2 = r.spReset ∧
    (∀ i : RegIdx, i ≠ 0 → i ≠ 2 → s.readReg i = r.initRegs[i.val]) ∧
    ∀ k, k < p.memWords → s.mem.read k = (r.initMem[k]?).getD 0#32

/-- State.reset at the model's defaults. MEM_WORDS = 64, SP_RESET, INIT_REGS and INIT_MEM are the model's
choices (log entries 2 to 5). -/
def Obligations.ResetAtDefaults : Prop :=
  State.reset.params = { memWords := 64, negEaPolicy := .fatal, srxAdvancesPc := false } ∧
  State.reset.pc = 0#32 ∧ State.reset.readReg 2 = 0xFC#32 ∧
  (∀ i : RegIdx, i ≠ 2 → State.reset.readReg i = 0#32) ∧
  (∀ k, State.reset.mem.read k = 0#32) ∧ State.reset.cycles = 0 ∧ State.reset.status = .running

/-- Load(offset, words): within the capacity word offset + k becomes words[k] and nothing else changes;
past it the status becomes Fatal(LoadOutOfBounds) and nothing else changes (R181 to R183). -/
def Obligations.ProgramLoadCopiesWords : Prop :=
  ∀ (s : State) (off : Nat) (ws : List Word), NotFatal s →
    (off + ws.length ≤ s.params.memWords → ∃ t, s.load off ws = .next t ∧
      (∀ k, k < ws.length → t.mem.read (off + k) = (ws[k]?).getD 0#32) ∧
      (∀ j, j < off ∨ off + ws.length ≤ j → t.mem.read j = s.mem.read j) ∧
      t.regs = s.regs ∧ t.pc = s.pc ∧ SameControl s t) ∧
    (s.params.memWords < off + ws.length →
      s.load off ws = .next { s with status := .fatal .loadOutOfBounds })

/-- Observe reads out pc, every register, every word of memory, cycles and status (R185). -/
def Obligations.ObserveReadsWholeState : Prop :=
  ∀ s : State, s.observe.pc = s.pc ∧ s.observe.cycles = s.cycles ∧ s.observe.status = s.status ∧
    (∀ i : RegIdx, s.observe.regs[i.val]? = some (s.readReg i)) ∧
    s.observe.regs.length = 32 ∧ s.observe.mem.length = s.params.memWords ∧
    ∀ k, k < s.params.memWords → s.observe.mem[k]? = some (s.mem.read k)

/-! ### The assembler's words -/

/-- R-, I- and S-type words of the assembler are the engine's layouts. An I-type immediate keeps only its
low 12 bits, and the engine decodes those, extended; an S-type immediate within the field width is recovered
exactly (R87 to R89). -/
def Obligations.AssemblerPacksEngineLayouts : Prop :=
  (∀ f7 f3 rd rs1 rs2, (AsmInstr.r f7 f3 rd rs1 rs2).encode = packR f7 rs2 rs1 f3 rd 0x33#7) ∧
  (∀ op f3 rd rs1 imm,
    let w := (AsmInstr.i op f3 rd rs1 imm).encode
    w = packI (BitVec.ofInt 12 imm) rs1 f3 rd op ∧ sext12 (immI w) = extended (BitVec.ofInt 12 imm)) ∧
  ∀ f3 rs1 rs2 imm,
    let w := (AsmInstr.s f3 rs1 rs2 imm).encode
    w = packS (BitVec.ofInt 12 imm) rs2 rs1 f3 0x23#7 ∧
    (-2048 ≤ imm → imm ≤ 2047 → (sext12 (immS w)).toInt = imm)

/-- The offset the engine decodes from the assembler's branch word, in the four cases of R90; funct3 and
the registers survive. -/
def Obligations.AssemblerBranchOffsetMismatch : Prop :=
  ∀ (f3 : BitVec 3) (rs1 rs2 : RegIdx) (a : Int), -2048 ≤ a → a ≤ 2047 →
    let w := (AsmInstr.b f3 rs1 rs2 a).encode
    opcode w = 0x63#7 ∧ funct3 w = f3 ∧ rs1Field w = rs1 ∧ rs2Field w = rs2 ∧
    (funct7 w).toNat = a / 32 % 128 ∧ ((rdField w).val : Int) = a % 32 ∧
    (a % 2 = 0 → 0 ≤ a → (sext13 (immB w)).toInt = a) ∧
    (a % 2 = 0 → a < 0 → (sext13 (immB w)).toInt = a - 2048) ∧
    (a % 2 = 1 → 0 ≤ a → (sext13 (immB w)).toInt = a - 1 + 2048) ∧
    (a % 2 = 1 → a < 0 → (sext13 (immB w)).toInt = a - 1)

/-- The hazard pass, at every instruction of every program: two no-op words before an instruction that reads
prev; else one before an instruction that reads prev2 and writes a destination; else none; then prev2 becomes
prev and prev the instruction's destination, if any. A no-op word halts the block (R92, R93). The initial prev
and prev2, and whether x0 is a destination, are open (log entry 19), so the statement is for all of them. -/
def Obligations.HazardPassPadsDependencies : Prop :=
  decode asmNoOp = .halt ∧
  ∀ (x0 : Bool) (prev prev2 : Option RegIdx),
    hazardPass x0 [] prev prev2 = [] ∧
    ∀ (c : AsmInstr) (cs : List AsmInstr),
      let rest := c.encode :: hazardPass x0 cs (c.dest x0) prev
      (Reads c prev → hazardPass x0 (c :: cs) prev prev2 = 0#32 :: 0#32 :: rest) ∧
      (¬ Reads c prev → Reads c prev2 → c.dest x0 ≠ none →
        hazardPass x0 (c :: cs) prev prev2 = 0#32 :: rest) ∧
      (¬ Reads c prev → (¬ Reads c prev2 ∨ c.dest x0 = none) →
        hazardPass x0 (c :: cs) prev prev2 = rest)
end

