-- ==== Sys2Proof/Laws/Fields.lean ====
section
/-! SUPPORT. The fields of a packed word, and a word put together from its fields: each layout as a sum,
then the small lemmas by arithmetic (30_encoding.md R61 to R70). -/

namespace Sys2Proof

theorem toNat_append_eq {n m : Nat} (x : BitVec n) (y : BitVec m) :
    (x ++ y).toNat = x.toNat * 2 ^ m + y.toNat := by
  rw [BitVec.toNat_append, Nat.shiftLeft_eq, Nat.mul_comm, Nat.two_pow_add_eq_or_of_lt y.isLt]

theorem toNat_field {n : Nat} (x : BitVec n) (s l : Nat) :
    (x.extractLsb' s l).toNat = x.toNat / 2 ^ s % 2 ^ l := by
  simp [BitVec.extractLsb'_toNat, Nat.shiftRight_eq_div_pow]

@[simp] theorem regBits_toNat (r : RegIdx) : (regBits r).toNat = r.val := rfl

/-- A field that lies in the left part of an append. -/
theorem extract_left {n m : Nat} (x : BitVec n) (y : BitVec m) (s l : Nat) (h : m ≤ s) :
    (x ++ y).extractLsb' s l = x.extractLsb' (s - m) l := by
  apply BitVec.eq_of_getLsbD_eq
  intro i hi
  have h1 : ¬ s + i < m := by omega
  have h2 : s + i - m = s - m + i := by omega
  simp [BitVec.getLsbD_extractLsb', BitVec.getLsbD_append, h1, h2]

/-- A field that lies in the right part of an append. -/
theorem extract_right {n m : Nat} (x : BitVec n) (y : BitVec m) (s l : Nat) (h : s + l ≤ m) :
    (x ++ y).extractLsb' s l = y.extractLsb' s l := by
  apply BitVec.eq_of_getLsbD_eq
  intro i hi
  have h1 : s + i < m := by omega
  simp [BitVec.getLsbD_extractLsb', BitVec.getLsbD_append, h1]

/-- The whole of a vector, as a field of it. -/
theorem extract_whole {n : Nat} (x : BitVec n) : x.extractLsb' 0 n = x := by
  apply BitVec.eq_of_getLsbD_eq
  intro i hi
  simp [hi]

/-- Two neighbouring fields are one field. -/
theorem extract_join {n : Nat} (x : BitVec n) (s a b : Nat) :
    x.extractLsb' (s + b) a ++ x.extractLsb' s b = x.extractLsb' s (a + b) := by
  apply BitVec.eq_of_getLsbD_eq
  intro i hi
  simp only [BitVec.getLsbD_extractLsb', BitVec.getLsbD_append]
  by_cases h : i < b
  · have : i < a + b := by omega
    simp [h, this]
  · have h1 : i - b < a := by omega
    have h2 : s + b + (i - b) = s + i := by omega
    simp [h, h1, h2, hi]

/-- Bit 0 of an even offset, as a field. -/
theorem extract_bit0_of_even {n : Nat} (x : BitVec n) (h : x.getLsbD 0 = false) :
    x.extractLsb' 0 1 = 0#1 := by
  apply BitVec.eq_of_getLsbD_eq
  intro i hi
  have : i = 0 := by omega
  subst this
  simp [h]

theorem opcode_toNat (w : Word) : (opcode w).toNat = w.toNat % 2 ^ 7 := by
  simp [opcode]

theorem rdField_val (w : Word) : (rdField w).val = w.toNat / 2 ^ 7 % 2 ^ 5 :=
  toNat_field w 7 5

theorem funct3_toNat (w : Word) : (funct3 w).toNat = w.toNat / 2 ^ 12 % 2 ^ 3 := toNat_field w 12 3

theorem rs1Field_val (w : Word) : (rs1Field w).val = w.toNat / 2 ^ 15 % 2 ^ 5 :=
  toNat_field w 15 5

theorem rs2Field_val (w : Word) : (rs2Field w).val = w.toNat / 2 ^ 20 % 2 ^ 5 :=
  toNat_field w 20 5

theorem shamtField_toNat (w : Word) : (shamtField w).toNat = w.toNat / 2 ^ 20 % 2 ^ 5 :=
  toNat_field w 20 5

theorem funct7_toNat (w : Word) : (funct7 w).toNat = w.toNat / 2 ^ 25 % 2 ^ 7 := toNat_field w 25 7

theorem immI_toNat (w : Word) : (immI w).toNat = w.toNat / 2 ^ 20 % 2 ^ 12 := toNat_field w 20 12

theorem immU_toNat (w : Word) : (immU w).toNat = w.toNat / 2 ^ 12 % 2 ^ 20 := toNat_field w 12 20

theorem packR_toNat (f7 : BitVec 7) (rs2 rs1 : RegIdx) (f3 : BitVec 3) (rd : RegIdx) (op : BitVec 7) :
    (packR f7 rs2 rs1 f3 rd op).toNat =
      f7.toNat * 2 ^ 25 + rs2.val * 2 ^ 20 + rs1.val * 2 ^ 15 + f3.toNat * 2 ^ 12 + rd.val * 2 ^ 7 +
      op.toNat := by
  unfold packR
  simp only [toNat_append_eq, regBits_toNat]
  omega

@[simp] theorem opcode_packR (f7 : BitVec 7) (rs2 rs1 : RegIdx) (f3 : BitVec 3) (rd : RegIdx) (op : BitVec 7) :
    opcode (packR f7 rs2 rs1 f3 rd op) = op := by
  apply BitVec.eq_of_toNat_eq
  rw [opcode_toNat, packR_toNat]
  omega

@[simp] theorem funct3_packR (f7 : BitVec 7) (rs2 rs1 : RegIdx) (f3 : BitVec 3) (rd : RegIdx) (op : BitVec 7) :
    funct3 (packR f7 rs2 rs1 f3 rd op) = f3 := by
  apply BitVec.eq_of_toNat_eq
  rw [funct3_toNat, packR_toNat]
  omega

@[simp] theorem funct7_packR (f7 : BitVec 7) (rs2 rs1 : RegIdx) (f3 : BitVec 3) (rd : RegIdx) (op : BitVec 7) :
    funct7 (packR f7 rs2 rs1 f3 rd op) = f7 := by
  apply BitVec.eq_of_toNat_eq
  rw [funct7_toNat, packR_toNat]
  omega

@[simp] theorem rdField_packR (f7 : BitVec 7) (rs2 rs1 : RegIdx) (f3 : BitVec 3) (rd : RegIdx) (op : BitVec 7) :
    rdField (packR f7 rs2 rs1 f3 rd op) = rd := by
  apply Fin.ext
  rw [rdField_val, packR_toNat]
  omega

@[simp] theorem rs1Field_packR (f7 : BitVec 7) (rs2 rs1 : RegIdx) (f3 : BitVec 3) (rd : RegIdx) (op : BitVec 7) :
    rs1Field (packR f7 rs2 rs1 f3 rd op) = rs1 := by
  apply Fin.ext
  rw [rs1Field_val, packR_toNat]
  omega

@[simp] theorem rs2Field_packR (f7 : BitVec 7) (rs2 rs1 : RegIdx) (f3 : BitVec 3) (rd : RegIdx) (op : BitVec 7) :
    rs2Field (packR f7 rs2 rs1 f3 rd op) = rs2 := by
  apply Fin.ext
  rw [rs2Field_val, packR_toNat]
  omega

/-- Every bit of a word is in a field of the layout. -/
theorem packR_fields (w : Word) : packR (funct7 w) (rs2Field w) (rs1Field w) (funct3 w) (rdField w) (opcode w) = w := by
  apply BitVec.eq_of_toNat_eq
  rw [packR_toNat, funct7_toNat, rs2Field_val, rs1Field_val, funct3_toNat, rdField_val, opcode_toNat]
  omega

theorem packI_toNat (imm : BitVec 12) (rs1 : RegIdx) (f3 : BitVec 3) (rd : RegIdx) (op : BitVec 7) :
    (packI imm rs1 f3 rd op).toNat =
      imm.toNat * 2 ^ 20 + rs1.val * 2 ^ 15 + f3.toNat * 2 ^ 12 + rd.val * 2 ^ 7 + op.toNat := by
  unfold packI
  simp only [toNat_append_eq, regBits_toNat]
  omega

@[simp] theorem opcode_packI (imm : BitVec 12) (rs1 : RegIdx) (f3 : BitVec 3) (rd : RegIdx) (op : BitVec 7) :
    opcode (packI imm rs1 f3 rd op) = op := by
  apply BitVec.eq_of_toNat_eq
  rw [opcode_toNat, packI_toNat]
  omega

@[simp] theorem funct3_packI (imm : BitVec 12) (rs1 : RegIdx) (f3 : BitVec 3) (rd : RegIdx) (op : BitVec 7) :
    funct3 (packI imm rs1 f3 rd op) = f3 := by
  apply BitVec.eq_of_toNat_eq
  rw [funct3_toNat, packI_toNat]
  omega

@[simp] theorem rdField_packI (imm : BitVec 12) (rs1 : RegIdx) (f3 : BitVec 3) (rd : RegIdx) (op : BitVec 7) :
    rdField (packI imm rs1 f3 rd op) = rd := by
  apply Fin.ext
  rw [rdField_val, packI_toNat]
  omega

@[simp] theorem rs1Field_packI (imm : BitVec 12) (rs1 : RegIdx) (f3 : BitVec 3) (rd : RegIdx) (op : BitVec 7) :
    rs1Field (packI imm rs1 f3 rd op) = rs1 := by
  apply Fin.ext
  rw [rs1Field_val, packI_toNat]
  omega

@[simp] theorem immI_packI (imm : BitVec 12) (rs1 : RegIdx) (f3 : BitVec 3) (rd : RegIdx) (op : BitVec 7) :
    immI (packI imm rs1 f3 rd op) = imm := by
  apply BitVec.eq_of_toNat_eq
  rw [immI_toNat, packI_toNat]
  omega

/-- Every bit of a word is in a field of the layout. -/
theorem packI_fields (w : Word) : packI (immI w) (rs1Field w) (funct3 w) (rdField w) (opcode w) = w := by
  apply BitVec.eq_of_toNat_eq
  rw [packI_toNat, immI_toNat, rs1Field_val, funct3_toNat, rdField_val, opcode_toNat]
  omega

theorem packShift_toNat (f7 : BitVec 7) (sh : BitVec 5) (rs1 : RegIdx) (f3 : BitVec 3) (rd : RegIdx) (op : BitVec 7) :
    (packShift f7 sh rs1 f3 rd op).toNat =
      f7.toNat * 2 ^ 25 + sh.toNat * 2 ^ 20 + rs1.val * 2 ^ 15 + f3.toNat * 2 ^ 12 + rd.val * 2 ^ 7 +
      op.toNat := by
  unfold packShift
  simp only [toNat_append_eq, regBits_toNat]
  omega

@[simp] theorem opcode_packShift (f7 : BitVec 7) (sh : BitVec 5) (rs1 : RegIdx) (f3 : BitVec 3) (rd : RegIdx) (op : BitVec 7) :
    opcode (packShift f7 sh rs1 f3 rd op) = op := by
  apply BitVec.eq_of_toNat_eq
  rw [opcode_toNat, packShift_toNat]
  omega

@[simp] theorem funct3_packShift (f7 : BitVec 7) (sh : BitVec 5) (rs1 : RegIdx) (f3 : BitVec 3) (rd : RegIdx) (op : BitVec 7) :
    funct3 (packShift f7 sh rs1 f3 rd op) = f3 := by
  apply BitVec.eq_of_toNat_eq
  rw [funct3_toNat, packShift_toNat]
  omega

@[simp] theorem funct7_packShift (f7 : BitVec 7) (sh : BitVec 5) (rs1 : RegIdx) (f3 : BitVec 3) (rd : RegIdx) (op : BitVec 7) :
    funct7 (packShift f7 sh rs1 f3 rd op) = f7 := by
  apply BitVec.eq_of_toNat_eq
  rw [funct7_toNat, packShift_toNat]
  omega

@[simp] theorem rdField_packShift (f7 : BitVec 7) (sh : BitVec 5) (rs1 : RegIdx) (f3 : BitVec 3) (rd : RegIdx) (op : BitVec 7) :
    rdField (packShift f7 sh rs1 f3 rd op) = rd := by
  apply Fin.ext
  rw [rdField_val, packShift_toNat]
  omega

@[simp] theorem rs1Field_packShift (f7 : BitVec 7) (sh : BitVec 5) (rs1 : RegIdx) (f3 : BitVec 3) (rd : RegIdx) (op : BitVec 7) :
    rs1Field (packShift f7 sh rs1 f3 rd op) = rs1 := by
  apply Fin.ext
  rw [rs1Field_val, packShift_toNat]
  omega

@[simp] theorem shamtField_packShift (f7 : BitVec 7) (sh : BitVec 5) (rs1 : RegIdx) (f3 : BitVec 3) (rd : RegIdx) (op : BitVec 7) :
    shamtField (packShift f7 sh rs1 f3 rd op) = sh := by
  apply BitVec.eq_of_toNat_eq
  rw [shamtField_toNat, packShift_toNat]
  omega

/-- Every bit of a word is in a field of the layout. -/
theorem packShift_fields (w : Word) : packShift (funct7 w) (shamtField w) (rs1Field w) (funct3 w) (rdField w) (opcode w) = w := by
  apply BitVec.eq_of_toNat_eq
  rw [packShift_toNat, funct7_toNat, shamtField_toNat, rs1Field_val, funct3_toNat, rdField_val, opcode_toNat]
  omega

theorem packU_toNat (imm : BitVec 20) (rd : RegIdx) (op : BitVec 7) :
    (packU imm rd op).toNat =
      imm.toNat * 2 ^ 12 + rd.val * 2 ^ 7 + op.toNat := by
  unfold packU
  simp only [toNat_append_eq, regBits_toNat]
  omega

@[simp] theorem opcode_packU (imm : BitVec 20) (rd : RegIdx) (op : BitVec 7) :
    opcode (packU imm rd op) = op := by
  apply BitVec.eq_of_toNat_eq
  rw [opcode_toNat, packU_toNat]
  omega

@[simp] theorem rdField_packU (imm : BitVec 20) (rd : RegIdx) (op : BitVec 7) :
    rdField (packU imm rd op) = rd := by
  apply Fin.ext
  rw [rdField_val, packU_toNat]
  omega

@[simp] theorem immU_packU (imm : BitVec 20) (rd : RegIdx) (op : BitVec 7) :
    immU (packU imm rd op) = imm := by
  apply BitVec.eq_of_toNat_eq
  rw [immU_toNat, packU_toNat]
  omega

/-- Every bit of a word is in a field of the layout. -/
theorem packU_fields (w : Word) : packU (immU w) (rdField w) (opcode w) = w := by
  apply BitVec.eq_of_toNat_eq
  rw [packU_toNat, immU_toNat, rdField_val, opcode_toNat]
  omega

theorem packS_bits25 (imm : BitVec 12) (rs2 rs1 : RegIdx) (f3 : BitVec 3) (op : BitVec 7) :
    (packS imm rs2 rs1 f3 op).extractLsb' 25 7 = imm.extractLsb' 5 7 :=
  (extract_left _ _ _ _ (by decide)).trans ((extract_left _ _ _ _ (by decide)).trans ((extract_left _ _ _ _ (by decide)).trans ((extract_left _ _ _ _ (by decide)).trans ((extract_left _ _ _ _ (by decide)).trans (extract_whole _)))))

@[simp] theorem rs2Field_packS (imm : BitVec 12) (rs2 rs1 : RegIdx) (f3 : BitVec 3) (op : BitVec 7) :
    rs2Field (packS imm rs2 rs1 f3 op) = rs2 :=
  congrArg BitVec.toFin ((extract_left _ _ _ _ (by decide)).trans ((extract_left _ _ _ _ (by decide)).trans ((extract_left _ _ _ _ (by decide)).trans ((extract_left _ _ _ _ (by decide)).trans ((extract_right _ _ _ _ (by decide)).trans (extract_whole _))))) : _ = regBits rs2)

@[simp] theorem rs1Field_packS (imm : BitVec 12) (rs2 rs1 : RegIdx) (f3 : BitVec 3) (op : BitVec 7) :
    rs1Field (packS imm rs2 rs1 f3 op) = rs1 :=
  congrArg BitVec.toFin ((extract_left _ _ _ _ (by decide)).trans ((extract_left _ _ _ _ (by decide)).trans ((extract_left _ _ _ _ (by decide)).trans ((extract_right _ _ _ _ (by decide)).trans (extract_whole _)))) : _ = regBits rs1)

@[simp] theorem funct3_packS (imm : BitVec 12) (rs2 rs1 : RegIdx) (f3 : BitVec 3) (op : BitVec 7) :
    funct3 (packS imm rs2 rs1 f3 op) = f3 :=
  (extract_left _ _ _ _ (by decide)).trans ((extract_left _ _ _ _ (by decide)).trans ((extract_right _ _ _ _ (by decide)).trans (extract_whole _)))

theorem packS_bits7 (imm : BitVec 12) (rs2 rs1 : RegIdx) (f3 : BitVec 3) (op : BitVec 7) :
    (packS imm rs2 rs1 f3 op).extractLsb' 7 5 = imm.extractLsb' 0 5 :=
  (extract_left _ _ _ _ (by decide)).trans ((extract_right _ _ _ _ (by decide)).trans (extract_whole _))

@[simp] theorem opcode_packS (imm : BitVec 12) (rs2 rs1 : RegIdx) (f3 : BitVec 3) (op : BitVec 7) :
    opcode (packS imm rs2 rs1 f3 op) = op :=
  (extract_right _ _ _ _ (by decide)).trans (extract_whole _)

@[simp] theorem immS_packS (imm : BitVec 12) (rs2 rs1 : RegIdx) (f3 : BitVec 3) (op : BitVec 7) :
    immS (packS imm rs2 rs1 f3 op) = imm := by
  unfold immS
  rw [packS_bits25, packS_bits7]
  exact (extract_join imm 0 7 5).trans (extract_whole imm)

theorem packB_bits31 (off : BitVec 13) (rs2 rs1 : RegIdx) (f3 : BitVec 3) (op : BitVec 7) :
    (packB off rs2 rs1 f3 op).extractLsb' 31 1 = off.extractLsb' 12 1 :=
  (extract_left _ _ _ _ (by decide)).trans ((extract_left _ _ _ _ (by decide)).trans ((extract_left _ _ _ _ (by decide)).trans ((extract_left _ _ _ _ (by decide)).trans ((extract_left _ _ _ _ (by decide)).trans ((extract_left _ _ _ _ (by decide)).trans ((extract_left _ _ _ _ (by decide)).trans (extract_whole _)))))))

theorem packB_bits25 (off : BitVec 13) (rs2 rs1 : RegIdx) (f3 : BitVec 3) (op : BitVec 7) :
    (packB off rs2 rs1 f3 op).extractLsb' 25 6 = off.extractLsb' 5 6 :=
  (extract_left _ _ _ _ (by decide)).trans ((extract_left _ _ _ _ (by decide)).trans ((extract_left _ _ _ _ (by decide)).trans ((extract_left _ _ _ _ (by decide)).trans ((extract_left _ _ _ _ (by decide)).trans ((extract_left _ _ _ _ (by decide)).trans ((extract_right _ _ _ _ (by decide)).trans (extract_whole _)))))))

@[simp] theorem rs2Field_packB (off : BitVec 13) (rs2 rs1 : RegIdx) (f3 : BitVec 3) (op : BitVec 7) :
    rs2Field (packB off rs2 rs1 f3 op) = rs2 :=
  congrArg BitVec.toFin ((extract_left _ _ _ _ (by decide)).trans ((extract_left _ _ _ _ (by decide)).trans ((extract_left _ _ _ _ (by decide)).trans ((extract_left _ _ _ _ (by decide)).trans ((extract_left _ _ _ _ (by decide)).trans ((extract_right _ _ _ _ (by decide)).trans (extract_whole _)))))) : _ = regBits rs2)

@[simp] theorem rs1Field_packB (off : BitVec 13) (rs2 rs1 : RegIdx) (f3 : BitVec 3) (op : BitVec 7) :
    rs1Field (packB off rs2 rs1 f3 op) = rs1 :=
  congrArg BitVec.toFin ((extract_left _ _ _ _ (by decide)).trans ((extract_left _ _ _ _ (by decide)).trans ((extract_left _ _ _ _ (by decide)).trans ((extract_left _ _ _ _ (by decide)).trans ((extract_right _ _ _ _ (by decide)).trans (extract_whole _))))) : _ = regBits rs1)

@[simp] theorem funct3_packB (off : BitVec 13) (rs2 rs1 : RegIdx) (f3 : BitVec 3) (op : BitVec 7) :
    funct3 (packB off rs2 rs1 f3 op) = f3 :=
  (extract_left _ _ _ _ (by decide)).trans ((extract_left _ _ _ _ (by decide)).trans ((extract_left _ _ _ _ (by decide)).trans ((extract_right _ _ _ _ (by decide)).trans (extract_whole _))))

theorem packB_bits8 (off : BitVec 13) (rs2 rs1 : RegIdx) (f3 : BitVec 3) (op : BitVec 7) :
    (packB off rs2 rs1 f3 op).extractLsb' 8 4 = off.extractLsb' 1 4 :=
  (extract_left _ _ _ _ (by decide)).trans ((extract_left _ _ _ _ (by decide)).trans ((extract_right _ _ _ _ (by decide)).trans (extract_whole _)))

theorem packB_bits7 (off : BitVec 13) (rs2 rs1 : RegIdx) (f3 : BitVec 3) (op : BitVec 7) :
    (packB off rs2 rs1 f3 op).extractLsb' 7 1 = off.extractLsb' 11 1 :=
  (extract_left _ _ _ _ (by decide)).trans ((extract_right _ _ _ _ (by decide)).trans (extract_whole _))

@[simp] theorem opcode_packB (off : BitVec 13) (rs2 rs1 : RegIdx) (f3 : BitVec 3) (op : BitVec 7) :
    opcode (packB off rs2 rs1 f3 op) = op :=
  (extract_right _ _ _ _ (by decide)).trans (extract_whole _)

theorem immB_packB (off : BitVec 13) (rs2 rs1 : RegIdx) (f3 : BitVec 3) (op : BitVec 7) (h : off.getLsbD 0 = false) :
    immB (packB off rs2 rs1 f3 op) = off := by
  unfold immB
  rw [packB_bits31, packB_bits7, packB_bits25, packB_bits8, ← extract_bit0_of_even off h,
    extract_join off 11 1 1, extract_join off 5 2 6, extract_join off 1 8 4]
  exact (extract_join off 0 12 1).trans (extract_whole off)

theorem packJ_bits31 (off : BitVec 21) (rd : RegIdx) (op : BitVec 7) :
    (packJ off rd op).extractLsb' 31 1 = off.extractLsb' 20 1 :=
  (extract_left _ _ _ _ (by decide)).trans ((extract_left _ _ _ _ (by decide)).trans ((extract_left _ _ _ _ (by decide)).trans ((extract_left _ _ _ _ (by decide)).trans ((extract_left _ _ _ _ (by decide)).trans (extract_whole _)))))

theorem packJ_bits21 (off : BitVec 21) (rd : RegIdx) (op : BitVec 7) :
    (packJ off rd op).extractLsb' 21 10 = off.extractLsb' 1 10 :=
  (extract_left _ _ _ _ (by decide)).trans ((extract_left _ _ _ _ (by decide)).trans ((extract_left _ _ _ _ (by decide)).trans ((extract_left _ _ _ _ (by decide)).trans ((extract_right _ _ _ _ (by decide)).trans (extract_whole _)))))

theorem packJ_bits20 (off : BitVec 21) (rd : RegIdx) (op : BitVec 7) :
    (packJ off rd op).extractLsb' 20 1 = off.extractLsb' 11 1 :=
  (extract_left _ _ _ _ (by decide)).trans ((extract_left _ _ _ _ (by decide)).trans ((extract_left _ _ _ _ (by decide)).trans ((extract_right _ _ _ _ (by decide)).trans (extract_whole _))))

theorem packJ_bits12 (off : BitVec 21) (rd : RegIdx) (op : BitVec 7) :
    (packJ off rd op).extractLsb' 12 8 = off.extractLsb' 12 8 :=
  (extract_left _ _ _ _ (by decide)).trans ((extract_left _ _ _ _ (by decide)).trans ((extract_right _ _ _ _ (by decide)).trans (extract_whole _)))

@[simp] theorem rdField_packJ (off : BitVec 21) (rd : RegIdx) (op : BitVec 7) :
    rdField (packJ off rd op) = rd :=
  congrArg BitVec.toFin ((extract_left _ _ _ _ (by decide)).trans ((extract_right _ _ _ _ (by decide)).trans (extract_whole _)) : _ = regBits rd)

@[simp] theorem opcode_packJ (off : BitVec 21) (rd : RegIdx) (op : BitVec 7) :
    opcode (packJ off rd op) = op :=
  (extract_right _ _ _ _ (by decide)).trans (extract_whole _)

theorem immJ_packJ (off : BitVec 21) (rd : RegIdx) (op : BitVec 7) (h : off.getLsbD 0 = false) :
    immJ (packJ off rd op) = off := by
  unfold immJ
  rw [packJ_bits31, packJ_bits12, packJ_bits20, packJ_bits21, ← extract_bit0_of_even off h,
    extract_join off 12 1 8, extract_join off 11 9 1, extract_join off 1 10 10]
  exact (extract_join off 0 20 1).trans (extract_whole off)

theorem regBits_rdField (w : Word) : regBits (rdField w) = w.extractLsb' 7 5 := rfl

theorem regBits_rs1Field (w : Word) : regBits (rs1Field w) = w.extractLsb' 15 5 := rfl

theorem regBits_rs2Field (w : Word) : regBits (rs2Field w) = w.extractLsb' 20 5 := rfl

theorem immS_high (w : Word) : (immS w).extractLsb' 5 7 = w.extractLsb' 25 7 :=
  (extract_left _ _ _ _ (by decide)).trans (extract_whole _)

theorem immS_low (w : Word) : (immS w).extractLsb' 0 5 = w.extractLsb' 7 5 :=
  (extract_right _ _ _ _ (by decide)).trans (extract_whole _)

theorem immB_bits12 (w : Word) : (immB w).extractLsb' 12 1 = w.extractLsb' 31 1 :=
  (extract_left _ _ _ _ (by decide)).trans ((extract_left _ _ _ _ (by decide)).trans ((extract_left _ _ _ _ (by decide)).trans ((extract_left _ _ _ _ (by decide)).trans (extract_whole _))))

theorem immB_bits11 (w : Word) : (immB w).extractLsb' 11 1 = w.extractLsb' 7 1 :=
  (extract_left _ _ _ _ (by decide)).trans ((extract_left _ _ _ _ (by decide)).trans ((extract_left _ _ _ _ (by decide)).trans ((extract_right _ _ _ _ (by decide)).trans (extract_whole _))))

theorem immB_bits5 (w : Word) : (immB w).extractLsb' 5 6 = w.extractLsb' 25 6 :=
  (extract_left _ _ _ _ (by decide)).trans ((extract_left _ _ _ _ (by decide)).trans ((extract_right _ _ _ _ (by decide)).trans (extract_whole _)))

theorem immB_bits1 (w : Word) : (immB w).extractLsb' 1 4 = w.extractLsb' 8 4 :=
  (extract_left _ _ _ _ (by decide)).trans ((extract_right _ _ _ _ (by decide)).trans (extract_whole _))

theorem immJ_bits20 (w : Word) : (immJ w).extractLsb' 20 1 = w.extractLsb' 31 1 :=
  (extract_left _ _ _ _ (by decide)).trans ((extract_left _ _ _ _ (by decide)).trans ((extract_left _ _ _ _ (by decide)).trans ((extract_left _ _ _ _ (by decide)).trans (extract_whole _))))

theorem immJ_bits12 (w : Word) : (immJ w).extractLsb' 12 8 = w.extractLsb' 12 8 :=
  (extract_left _ _ _ _ (by decide)).trans ((extract_left _ _ _ _ (by decide)).trans ((extract_left _ _ _ _ (by decide)).trans ((extract_right _ _ _ _ (by decide)).trans (extract_whole _))))

theorem immJ_bits11 (w : Word) : (immJ w).extractLsb' 11 1 = w.extractLsb' 20 1 :=
  (extract_left _ _ _ _ (by decide)).trans ((extract_left _ _ _ _ (by decide)).trans ((extract_right _ _ _ _ (by decide)).trans (extract_whole _)))

theorem immJ_bits1 (w : Word) : (immJ w).extractLsb' 1 10 = w.extractLsb' 21 10 :=
  (extract_left _ _ _ _ (by decide)).trans ((extract_right _ _ _ _ (by decide)).trans (extract_whole _))

/-- Every bit of a word is in a field of the layout. -/
theorem packS_fields (w : Word) :
    packS (immS w) (rs2Field w) (rs1Field w) (funct3 w) (opcode w) = w := by
  unfold packS funct3 opcode
  rw [immS_high, immS_low, regBits_rs2Field, regBits_rs1Field, extract_join w 20 7 5,
    extract_join w 15 12 5, extract_join w 12 17 3, extract_join w 7 20 5]
  exact (extract_join w 0 25 7).trans (extract_whole w)

/-- Every bit of a word is in a field of the layout. -/
theorem packB_fields (w : Word) :
    packB (immB w) (rs2Field w) (rs1Field w) (funct3 w) (opcode w) = w := by
  unfold packB funct3 opcode
  rw [immB_bits12, immB_bits5, immB_bits1, immB_bits11, regBits_rs2Field, regBits_rs1Field,
    extract_join w 25 1 6, extract_join w 20 7 5, extract_join w 15 12 5, extract_join w 12 17 3,
    extract_join w 8 20 4, extract_join w 7 24 1]
  exact (extract_join w 0 25 7).trans (extract_whole w)

/-- Every bit of a word is in a field of the layout. -/
theorem packJ_fields (w : Word) : packJ (immJ w) (rdField w) (opcode w) = w := by
  unfold packJ opcode
  rw [immJ_bits20, immJ_bits1, immJ_bits11, immJ_bits12, regBits_rdField,
    extract_join w 21 1 10, extract_join w 20 11 1, extract_join w 12 12 8, extract_join w 7 20 5]
  exact (extract_join w 0 25 7).trans (extract_whole w)

end Sys2Proof
end

