-- ==== Sys2Proof/Laws/Decode.lean ====
section
/-! SUPPORT. The decoder by class: once the opcode is known, decode is the class's own function (30_encoding.md
R72). -/

namespace Sys2Proof

/-- A word with a non-zero opcode is not the halt word. -/
theorem ne_zero_of_opcode {w : Word} {op : BitVec 7} (h : opcode w = op) (h0 : op ≠ 0#7) : w ≠ 0#32 := by
  rintro rfl
  exact h0 (h ▸ rfl)

theorem decode_lui {w : Word} (h : opcode w = 0x37#7) :
    decode w = .lui (rdField w) (immU w) := by
  unfold decode
  rw [if_neg (ne_zero_of_opcode h (by decide))]
  simp [h]

theorem decode_auipc {w : Word} (h : opcode w = 0x17#7) :
    decode w = .auipc (rdField w) (immU w) := by
  unfold decode
  rw [if_neg (ne_zero_of_opcode h (by decide))]
  simp [h]

theorem decode_jal {w : Word} (h : opcode w = 0x6F#7) :
    decode w = .jal (rdField w) (immJ w) := by
  unfold decode
  rw [if_neg (ne_zero_of_opcode h (by decide))]
  simp [h]

theorem decode_jalr {w : Word} (h : opcode w = 0x67#7) :
    decode w = if funct3 w = 0b000#3 then .jalr (rdField w) (rs1Field w) (immI w) else .fatalJalrFunct3 w := by
  unfold decode
  rw [if_neg (ne_zero_of_opcode h (by decide))]
  simp [h]

theorem decode_branch {w : Word} (h : opcode w = 0x63#7) :
    decode w = decodeBranch w := by
  unfold decode
  rw [if_neg (ne_zero_of_opcode h (by decide))]
  simp [h]

theorem decode_load {w : Word} (h : opcode w = 0x03#7) :
    decode w = decodeLoad w := by
  unfold decode
  rw [if_neg (ne_zero_of_opcode h (by decide))]
  simp [h]

theorem decode_store {w : Word} (h : opcode w = 0x23#7) :
    decode w = decodeStore w := by
  unfold decode
  rw [if_neg (ne_zero_of_opcode h (by decide))]
  simp [h]

theorem decode_opImm {w : Word} (h : opcode w = 0x13#7) :
    decode w = decodeOpImm w := by
  unfold decode
  rw [if_neg (ne_zero_of_opcode h (by decide))]
  simp [h]

theorem decode_op {w : Word} (h : opcode w = 0x33#7) :
    decode w = decodeOp w := by
  unfold decode
  rw [if_neg (ne_zero_of_opcode h (by decide))]
  simp [h]

theorem decode_miscMem {w : Word} (h : opcode w = 0x0F#7) :
    decode w = .fatalMiscMem w := by
  unfold decode
  rw [if_neg (ne_zero_of_opcode h (by decide))]
  simp [h]

theorem decode_system {w : Word} (h : opcode w = 0x73#7) :
    decode w = .fatalSystem w := by
  unfold decode
  rw [if_neg (ne_zero_of_opcode h (by decide))]
  simp [h]

/-- A word that is not zero and has no opcode the decoder knows. -/
theorem decode_invalid {w : Word} (h0 : w ≠ 0#32) (hc : isCoreOpcode (opcode w) = false)
    (hm : opcode w ≠ 0x0F#7) (hs : opcode w ≠ 0x73#7) : decode w = .fatalInvalidOpcode w := by
  simp only [isCoreOpcode, Bool.or_eq_false_iff, beq_eq_false_iff_ne] at hc
  unfold decode
  rw [if_neg h0]
  simp [hc, hm, hs]

/-- The opcodes the decoder tells apart. -/
theorem opcode_cases (w : Word) :
    opcode w = 0x37#7 ∨ opcode w = 0x17#7 ∨ opcode w = 0x6F#7 ∨ opcode w = 0x67#7 ∨
      opcode w = 0x63#7 ∨ opcode w = 0x03#7 ∨ opcode w = 0x23#7 ∨ opcode w = 0x13#7 ∨
      opcode w = 0x33#7 ∨ opcode w = 0x0F#7 ∨ opcode w = 0x73#7 ∨
      (isCoreOpcode (opcode w) = false ∧ opcode w ≠ 0x0F#7 ∧ opcode w ≠ 0x73#7) := by
  generalize opcode w = op
  revert op
  decide

/-- The eight values of a funct3 field. -/
theorem funct3_cases (x : BitVec 3) :
    x = 0#3 ∨ x = 1#3 ∨ x = 2#3 ∨ x = 3#3 ∨ x = 4#3 ∨ x = 5#3 ∨ x = 6#3 ∨ x = 7#3 := by
  revert x
  decide

end Sys2Proof
end

