-- ==== Sys2Proof/Laws/Memory.lean ====
section
/-! SUPPORT. The laws of the word array: a read after a write, and the canonical form kept. -/

namespace Sys2Proof.Machine

theorem Memory.read_remove (m : Memory) (i j : Nat) :
    (m.remove i).read j = if j = i then Memory.unlisted else m.read j := by
  induction m with
  | nil => simp [Memory.remove, Memory.read]
  | cons c rest ih =>
    obtain ⟨k, x⟩ := c
    by_cases hk : k = i
    · subst hk
      by_cases hj : j = k
      · subst hj; simp [Memory.remove, ih]
      · simp [Memory.remove, Memory.read, ih, hj, Ne.symm hj]
    · by_cases hj : j = i
      · subst hj; simp [Memory.remove, Memory.read, ih, hk]
      · simp [Memory.remove, Memory.read, ih, hk, hj]

/-- Inserting for an index that the array does not list. -/
theorem Memory.read_insertCell (m : Memory) (i j : Nat) (v : Word) (h : ∀ c ∈ m, c.1 ≠ i) :
    (m.insertCell i v).read j = if j = i then v else m.read j := by
  induction m with
  | nil => simp [Memory.insertCell, Memory.read, eq_comm]
  | cons c rest ih =>
    obtain ⟨k, x⟩ := c
    have hk : k ≠ i := h (k, x) (by simp)
    have ih' := ih (fun c hc => h c (by simp [hc]))
    unfold Memory.insertCell
    split
    · simp [Memory.read, eq_comm]
    · simp only [Memory.read, ih']
      by_cases hkj : k = j
      · subst hkj; simp [hk]
      · simp [hkj]

theorem Memory.mem_remove {m : Memory} {i : Nat} {c : Nat × Word} :
    c ∈ m.remove i ↔ c ∈ m ∧ c.1 ≠ i := by
  induction m with
  | nil => simp [Memory.remove]
  | cons d rest ih =>
    obtain ⟨k, x⟩ := d
    by_cases hk : k = i
    · subst hk
      simp only [Memory.remove, ↓reduceIte, ih, List.mem_cons]
      constructor
      · rintro ⟨h, hne⟩; exact ⟨.inr h, hne⟩
      · rintro ⟨rfl | h, hne⟩
        · exact absurd rfl hne
        · exact ⟨h, hne⟩
    · simp only [Memory.remove, hk, ↓reduceIte, ih, List.mem_cons]
      constructor
      · rintro (rfl | ⟨h, hne⟩)
        · exact ⟨.inl rfl, hk⟩
        · exact ⟨.inr h, hne⟩
      · rintro ⟨rfl | h, hne⟩
        · exact .inl rfl
        · exact .inr ⟨h, hne⟩

theorem Memory.mem_insertCell {m : Memory} {i : Nat} {v : Word} {c : Nat × Word} :
    c ∈ m.insertCell i v ↔ c = (i, v) ∨ c ∈ m := by
  induction m with
  | nil => simp [Memory.insertCell]
  | cons d rest ih =>
    obtain ⟨k, x⟩ := d
    unfold Memory.insertCell
    split
    · simp
    · simp only [List.mem_cons, ih]; tauto

/-- A read after a write, in every array (20_memory.md R53). -/
theorem Memory.read_write (m : Memory) (i j : Nat) (v : Word) :
    (m.write i v).read j = if j = i then v else m.read j := by
  unfold Memory.write
  split
  · rename_i hv; rw [Memory.read_remove, hv]
  · rw [Memory.read_insertCell _ _ _ _ (fun c hc => (Memory.mem_remove.1 hc).2), Memory.read_remove]
    split <;> simp_all

@[simp] theorem Memory.read_write_same (m : Memory) (i : Nat) (v : Word) :
    (m.write i v).read i = v := by
  simp [Memory.read_write]

theorem Memory.read_write_other (m : Memory) {i j : Nat} (v : Word) (h : j ≠ i) :
    (m.write i v).read j = m.read j := by
  simp [Memory.read_write, h]

theorem Memory.remove_pairwise {m : Memory} (i : Nat) (h : m.Pairwise (fun a b => a.1 < b.1)) :
    (m.remove i).Pairwise (fun a b => a.1 < b.1) := by
  induction m with
  | nil => simp [Memory.remove]
  | cons d rest ih =>
    obtain ⟨k, x⟩ := d
    rw [List.pairwise_cons] at h
    unfold Memory.remove
    split
    · exact ih h.2
    · rw [List.pairwise_cons]
      exact ⟨fun c hc => h.1 c (Memory.mem_remove.1 hc).1, ih h.2⟩

theorem Memory.insertCell_pairwise {m : Memory} (i : Nat) (v : Word)
    (h : m.Pairwise (fun a b => a.1 < b.1)) (hi : ∀ c ∈ m, c.1 ≠ i) :
    (m.insertCell i v).Pairwise (fun a b => a.1 < b.1) := by
  induction m with
  | nil => simp [Memory.insertCell]
  | cons d rest ih =>
    obtain ⟨k, x⟩ := d
    have hk : k ≠ i := hi (k, x) (by simp)
    rw [List.pairwise_cons] at h
    unfold Memory.insertCell
    split
    · rename_i hlt
      refine List.pairwise_cons.2 ⟨?_, List.pairwise_cons.2 h⟩
      intro c hc
      rcases List.mem_cons.1 hc with rfl | hc
      · exact hlt
      · exact lt_trans hlt (h.1 c hc)
    · rename_i hge
      refine List.pairwise_cons.2 ⟨?_, ih h.2 (fun c hc => hi c (by simp [hc]))⟩
      intro c hc
      rcases Memory.mem_insertCell.1 hc with rfl | hc
      · show k < i; omega
      · exact h.1 c hc

/-- A write keeps the canonical form. -/
theorem Memory.write_wf {m : Memory} (i : Nat) (v : Word) (h : m.wf) : (m.write i v).wf := by
  have hr := Memory.remove_pairwise i h.1
  unfold Memory.write
  split
  · exact ⟨hr, fun c hc => h.2 c (Memory.mem_remove.1 hc).1⟩
  · rename_i hv
    refine ⟨Memory.insertCell_pairwise i v hr (fun c hc => (Memory.mem_remove.1 hc).2), ?_⟩
    intro c hc
    rcases Memory.mem_insertCell.1 hc with rfl | hc
    · exact hv
    · exact h.2 c (Memory.mem_remove.1 hc).1

/-- A write to an existing word lists only existing words. -/
theorem Memory.write_within {m : Memory} {n i : Nat} (v : Word) (h : m.within n) (hi : i < n) :
    (m.write i v).within n := by
  unfold Memory.write
  split
  · exact fun c hc => h c (Memory.mem_remove.1 hc).1
  · intro c hc
    rcases Memory.mem_insertCell.1 hc with rfl | hc
    · exact hi
    · exact h c (Memory.mem_remove.1 hc).1

theorem Memory.writeWords_wf {m : Memory} (off : Nat) (ws : List Word) (h : m.wf) :
    (m.writeWords off ws).wf := by
  induction ws generalizing m off with
  | nil => exact h
  | cons w rest ih => exact ih (off + 1) (Memory.write_wf off w h)

theorem Memory.writeWords_within {m : Memory} {n : Nat} (off : Nat) (ws : List Word)
    (h : m.within n) (hn : off + ws.length ≤ n) : (m.writeWords off ws).within n := by
  induction ws generalizing m off with
  | nil => exact h
  | cons w rest ih =>
    simp only [List.length_cons] at hn
    exact ih (off + 1) (Memory.write_within w h (by omega)) (by omega)

/-- Outside the copied words nothing changes, and word off + k becomes words[k]
(70_reset_and_hazards.md R181, R183). -/
theorem Memory.read_writeWords (m : Memory) (off : Nat) (ws : List Word) (j : Nat) :
    (m.writeWords off ws).read j =
      if h : off ≤ j ∧ j - off < ws.length then ws[j - off]'h.2 else m.read j := by
  induction ws generalizing m off with
  | nil => simp [Memory.writeWords]
  | cons w rest ih =>
    simp only [Memory.writeWords, ih, Memory.read_write, List.length_cons]
    by_cases hj : j = off
    · subst hj; simp
    · by_cases hlt : off ≤ j
      · obtain ⟨d, rfl⟩ : ∃ d, j = off + 1 + d := ⟨j - off - 1, by omega⟩
        have h1 : off + 1 + d - (off + 1) = d := by omega
        have h2 : off + 1 + d - off = d + 1 := by omega
        by_cases hd : d < rest.length
        · simp [h1, h2, hd]
          omega
        · simp [h1, h2, hd]
          omega
      · have : ¬ off + 1 ≤ j := by omega
        simp [hlt, this, hj]

/-- An array in canonical form is known by its reads: equal memories are equal data. -/
theorem Memory.ext_of_wf {m n : Memory} (hm : m.wf) (hn : n.wf) (h : ∀ k, m.read k = n.read k) :
    m = n := by
  have read_below : ∀ (l : Memory) (k : Nat), (∀ c ∈ l, k < c.1) → l.read k = Memory.unlisted := by
    intro l k hl
    induction l with
    | nil => rfl
    | cons c rest ih =>
      obtain ⟨i, x⟩ := c
      have : k < i := hl (i, x) (by simp)
      rw [Memory.read, if_neg (by omega)]
      exact ih (fun c hc => hl c (by simp [hc]))
  induction m generalizing n with
  | nil =>
    cases n with
    | nil => rfl
    | cons c rest =>
      obtain ⟨i, x⟩ := c
      have := h i
      simp only [Memory.read, ↓reduceIte] at this
      exact absurd this.symm (hn.2 (i, x) (by simp))
  | cons c rest ih =>
    obtain ⟨i, x⟩ := c
    have hx : x ≠ Memory.unlisted := hm.2 (i, x) (by simp)
    have hm1 := List.pairwise_cons.1 hm.1
    cases n with
    | nil =>
      have := h i
      simp only [Memory.read, ↓reduceIte] at this
      exact absurd this hx
    | cons d rest' =>
      obtain ⟨k, y⟩ := d
      have hy : y ≠ Memory.unlisted := hn.2 (k, y) (by simp)
      have hn1 := List.pairwise_cons.1 hn.1
      rcases lt_trichotomy i k with hlt | rfl | hlt
      · have h1 := h i
        rw [Memory.read, if_pos rfl, read_below ((k, y) :: rest') i ?_] at h1
        · exact absurd h1 hx
        · intro c hc
          rcases List.mem_cons.1 hc with rfl | hc
          · exact hlt
          · exact lt_trans hlt (hn1.1 c hc)
      · have hxy : x = y := by simpa [Memory.read] using h i
        subst hxy
        have : rest = rest' := by
          refine ih ⟨hm1.2, fun c hc => hm.2 c (by simp [hc])⟩
            ⟨hn1.2, fun c hc => hn.2 c (by simp [hc])⟩ ?_
          intro j
          by_cases hj : i = j
          · subst hj; rw [read_below rest i hm1.1, read_below rest' i hn1.1]
          · simpa [Memory.read, hj] using h j
        rw [this]
      · have h1 := h k
        rw [read_below ((i, x) :: rest) k ?_, Memory.read, if_pos rfl] at h1
        · exact absurd h1.symm hy
        · intro c hc
          rcases List.mem_cons.1 hc with rfl | hc
          · exact hlt
          · exact lt_trans hlt (hm1.1 c hc)

end Sys2Proof.Machine
end

