-- ==== Sys2Proof/Laws/State.lean ====
section
/-! SUPPORT. One lemma per field per state update, so that no later proof unfolds a record update. -/

namespace Sys2Proof.Machine

@[simp] theorem writeReg_params (s : State) (i : RegIdx) (v : Word) :
    (s.writeReg i v).params = s.params := by
  unfold State.writeReg; split <;> rfl

@[simp] theorem writeReg_pc (s : State) (i : RegIdx) (v : Word) :
    (s.writeReg i v).pc = s.pc := by
  unfold State.writeReg; split <;> rfl

@[simp] theorem writeReg_mem (s : State) (i : RegIdx) (v : Word) :
    (s.writeReg i v).mem = s.mem := by
  unfold State.writeReg; split <;> rfl

@[simp] theorem writeReg_cycles (s : State) (i : RegIdx) (v : Word) :
    (s.writeReg i v).cycles = s.cycles := by
  unfold State.writeReg; split <;> rfl

@[simp] theorem writeReg_status (s : State) (i : RegIdx) (v : Word) :
    (s.writeReg i v).status = s.status := by
  unfold State.writeReg; split <;> rfl

@[simp] theorem setPc_params (s : State) (t : Word) :
    (s.setPc t).params = s.params := rfl

@[simp] theorem setPc_pc (s : State) (t : Word) :
    (s.setPc t).pc = t := rfl

@[simp] theorem setPc_regs (s : State) (t : Word) :
    (s.setPc t).regs = s.regs := rfl

@[simp] theorem setPc_mem (s : State) (t : Word) :
    (s.setPc t).mem = s.mem := rfl

@[simp] theorem setPc_cycles (s : State) (t : Word) :
    (s.setPc t).cycles = s.cycles := rfl

@[simp] theorem setPc_status (s : State) (t : Word) :
    (s.setPc t).status = s.status := rfl

@[simp] theorem advance_params (s : State) :
    s.advance.params = s.params := rfl

@[simp] theorem advance_pc (s : State) :
    s.advance.pc = s.nextPc := rfl

@[simp] theorem advance_regs (s : State) :
    s.advance.regs = s.regs := rfl

@[simp] theorem advance_mem (s : State) :
    s.advance.mem = s.mem := rfl

@[simp] theorem advance_cycles (s : State) :
    s.advance.cycles = s.cycles := rfl

@[simp] theorem advance_status (s : State) :
    s.advance.status = s.status := rfl

@[simp] theorem memWrite_params (s : State) (idx : Nat) (n : Width) (v : Word) :
    (s.memWrite idx n v).params = s.params := rfl

@[simp] theorem memWrite_pc (s : State) (idx : Nat) (n : Width) (v : Word) :
    (s.memWrite idx n v).pc = s.pc := rfl

@[simp] theorem memWrite_regs (s : State) (idx : Nat) (n : Width) (v : Word) :
    (s.memWrite idx n v).regs = s.regs := rfl

@[simp] theorem memWrite_mem (s : State) (idx : Nat) (n : Width) (v : Word) :
    (s.memWrite idx n v).mem = s.mem.write idx (mergeLow n (s.mem.read idx) v) := rfl

@[simp] theorem memWrite_cycles (s : State) (idx : Nat) (n : Width) (v : Word) :
    (s.memWrite idx n v).cycles = s.cycles := rfl

@[simp] theorem memWrite_status (s : State) (idx : Nat) (n : Width) (v : Word) :
    (s.memWrite idx n v).status = s.status := rfl

@[simp] theorem raiseFatal_params (s : State) (r : FatalReason) :
    (s.raiseFatal r).params = s.params := rfl

@[simp] theorem raiseFatal_pc (s : State) (r : FatalReason) :
    (s.raiseFatal r).pc = s.pc := rfl

@[simp] theorem raiseFatal_regs (s : State) (r : FatalReason) :
    (s.raiseFatal r).regs = s.regs := rfl

@[simp] theorem raiseFatal_mem (s : State) (r : FatalReason) :
    (s.raiseFatal r).mem = s.mem := rfl

@[simp] theorem raiseFatal_cycles (s : State) (r : FatalReason) :
    (s.raiseFatal r).cycles = s.cycles := rfl

@[simp] theorem raiseFatal_status (s : State) (r : FatalReason) :
    (s.raiseFatal r).status = .fatal r := rfl

@[simp] theorem enterHalt_params (s : State) :
    s.enterHalt.params = s.params := rfl

@[simp] theorem enterHalt_pc (s : State) :
    s.enterHalt.pc = s.pc := rfl

@[simp] theorem enterHalt_regs (s : State) :
    s.enterHalt.regs = s.regs := rfl

@[simp] theorem enterHalt_mem (s : State) :
    s.enterHalt.mem = s.mem := rfl

@[simp] theorem enterHalt_cycles (s : State) :
    s.enterHalt.cycles = s.cycles := rfl

@[simp] theorem enterHalt_status (s : State) :
    s.enterHalt.status = .halted := rfl

@[simp] theorem beginExecute_params (s : State) :
    s.beginExecute.params = s.params := rfl

@[simp] theorem beginExecute_pc (s : State) :
    s.beginExecute.pc = s.pc := rfl

@[simp] theorem beginExecute_regs (s : State) :
    s.beginExecute.regs = s.regs := rfl

@[simp] theorem beginExecute_mem (s : State) :
    s.beginExecute.mem = s.mem := rfl

@[simp] theorem beginExecute_cycles (s : State) :
    s.beginExecute.cycles = s.cycles + 1 := rfl

@[simp] theorem beginExecute_status (s : State) :
    s.beginExecute.status = .running := rfl

@[simp] theorem writeAndAdvance_params (s : State) (i : RegIdx) (v : Word) :
    (s.writeAndAdvance i v).params = s.params := by
  simp [State.writeAndAdvance]

@[simp] theorem writeAndAdvance_pc (s : State) (i : RegIdx) (v : Word) :
    (s.writeAndAdvance i v).pc = s.nextPc := by
  simp [State.writeAndAdvance, State.nextPc]

@[simp] theorem writeAndAdvance_mem (s : State) (i : RegIdx) (v : Word) :
    (s.writeAndAdvance i v).mem = s.mem := by
  simp [State.writeAndAdvance]

@[simp] theorem writeAndAdvance_cycles (s : State) (i : RegIdx) (v : Word) :
    (s.writeAndAdvance i v).cycles = s.cycles := by
  simp [State.writeAndAdvance]

@[simp] theorem writeAndAdvance_status (s : State) (i : RegIdx) (v : Word) :
    (s.writeAndAdvance i v).status = s.status := by
  simp [State.writeAndAdvance]

@[simp] theorem writeShiftRight_params (s : State) (i : RegIdx) (v : Word) :
    (s.writeShiftRight i v).params = s.params := by
  unfold State.writeShiftRight; split <;> simp

@[simp] theorem writeShiftRight_pc (s : State) (i : RegIdx) (v : Word) :
    (s.writeShiftRight i v).pc = if s.params.srxAdvancesPc then s.nextPc else s.pc := by
  unfold State.writeShiftRight; split <;> simp

@[simp] theorem writeShiftRight_mem (s : State) (i : RegIdx) (v : Word) :
    (s.writeShiftRight i v).mem = s.mem := by
  unfold State.writeShiftRight; split <;> simp

@[simp] theorem writeShiftRight_cycles (s : State) (i : RegIdx) (v : Word) :
    (s.writeShiftRight i v).cycles = s.cycles := by
  unfold State.writeShiftRight; split <;> simp

@[simp] theorem writeShiftRight_status (s : State) (i : RegIdx) (v : Word) :
    (s.writeShiftRight i v).status = s.status := by
  unfold State.writeShiftRight; split <;> simp

@[simp] theorem linkAndJump_params (s : State) (i : RegIdx) (t : Word) :
    (s.linkAndJump i t).params = s.params := by
  simp [State.linkAndJump]

@[simp] theorem linkAndJump_pc (s : State) (i : RegIdx) (t : Word) :
    (s.linkAndJump i t).pc = clearBit0 t := by
  simp [State.linkAndJump]

@[simp] theorem linkAndJump_mem (s : State) (i : RegIdx) (t : Word) :
    (s.linkAndJump i t).mem = s.mem := by
  simp [State.linkAndJump]

@[simp] theorem linkAndJump_cycles (s : State) (i : RegIdx) (t : Word) :
    (s.linkAndJump i t).cycles = s.cycles := by
  simp [State.linkAndJump]

@[simp] theorem linkAndJump_status (s : State) (i : RegIdx) (t : Word) :
    (s.linkAndJump i t).status = s.status := by
  simp [State.linkAndJump]

@[simp] theorem branch_params (s : State) (c : Bool) (o : Word) :
    (s.branch c o).params = s.params := rfl

@[simp] theorem branch_pc (s : State) (c : Bool) (o : Word) :
    (s.branch c o).pc = (if c then s.pc + o else s.nextPc) := rfl

@[simp] theorem branch_regs (s : State) (c : Bool) (o : Word) :
    (s.branch c o).regs = s.regs := rfl

@[simp] theorem branch_mem (s : State) (c : Bool) (o : Word) :
    (s.branch c o).mem = s.mem := rfl

@[simp] theorem branch_cycles (s : State) (c : Bool) (o : Word) :
    (s.branch c o).cycles = s.cycles := rfl

@[simp] theorem branch_status (s : State) (c : Bool) (o : Word) :
    (s.branch c o).status = s.status := rfl

/-- x[0] reads 0 in every state (10_state.md R21). -/
@[simp] theorem readReg_zero (s : State) : s.readReg 0 = 0#32 := rfl

/-- A read depends on the register file only. -/
theorem readReg_congr {s t : State} (h : t.regs = s.regs) (j : RegIdx) : t.readReg j = s.readReg j := by
  simp [State.readReg, h]

/-- What every register reads as after a write (00_scope.md R13, 10_state.md R21, R22). -/
theorem readReg_writeReg (s : State) (i j : RegIdx) (v : Word) :
    (s.writeReg i v).readReg j = if i ≠ 0 ∧ j = i then v else s.readReg j := by
  unfold State.writeReg State.readReg
  by_cases hi : i = 0
  · simp [hi]
  · by_cases hj : j = 0
    · subst hj; simp [hi, Ne.symm hi]
    · by_cases hij : j = i
      · subst hij; simp [hi]
      · have : i.val ≠ j.val := fun h => hij (Fin.ext h.symm)
        simp [hi, hj, hij, this]

/-- The stored entry of x0 after a write: writes to x0 are discarded (R22). -/
@[simp] theorem writeReg_entry_zero (s : State) (i : RegIdx) (v : Word) :
    (s.writeReg i v).regs[0] = s.regs[0] := by
  unfold State.writeReg
  split
  · rfl
  · rename_i hi
    have : i.val ≠ 0 := fun h => hi (Fin.ext h)
    simp [this]

@[simp] theorem readReg_setPc (s : State) (t : Word) (j : RegIdx) :
    (s.setPc t).readReg j = s.readReg j := rfl

@[simp] theorem readReg_advance (s : State) (j : RegIdx) :
    s.advance.readReg j = s.readReg j := rfl

@[simp] theorem readReg_memWrite (s : State) (idx : Nat) (n : Width) (v : Word) (j : RegIdx) :
    (s.memWrite idx n v).readReg j = s.readReg j := rfl

@[simp] theorem readReg_raiseFatal (s : State) (r : FatalReason) (j : RegIdx) :
    (s.raiseFatal r).readReg j = s.readReg j := rfl

@[simp] theorem readReg_enterHalt (s : State) (j : RegIdx) :
    s.enterHalt.readReg j = s.readReg j := rfl

@[simp] theorem readReg_beginExecute (s : State) (j : RegIdx) :
    s.beginExecute.readReg j = s.readReg j := rfl

@[simp] theorem readReg_branch (s : State) (c : Bool) (o : Word) (j : RegIdx) :
    (s.branch c o).readReg j = s.readReg j := rfl

/-- What every register reads as after writeAndAdvance. -/
theorem readReg_writeAndAdvance (s : State) (i j : RegIdx) (v : Word) :
    (s.writeAndAdvance i v).readReg j = if i ≠ 0 ∧ j = i then v else s.readReg j := by
  simp [State.writeAndAdvance, readReg_writeReg]

/-- What every register reads as after writeShiftRight, whatever it does to pc. -/
theorem readReg_writeShiftRight (s : State) (i j : RegIdx) (v : Word) :
    (s.writeShiftRight i v).readReg j = if i ≠ 0 ∧ j = i then v else s.readReg j := by
  unfold State.writeShiftRight
  split
  · exact readReg_writeAndAdvance s i j v
  · exact readReg_writeReg s i j v

/-- What every register reads as after a link and jump. -/
theorem readReg_linkAndJump (s : State) (i j : RegIdx) (t : Word) :
    (s.linkAndJump i t).readReg j = if i ≠ 0 ∧ j = i then s.nextPc else s.readReg j := by
  simp [State.linkAndJump, readReg_writeReg]

@[simp] theorem writeAndAdvance_entry_zero (s : State) (i : RegIdx) (v : Word) :
    (s.writeAndAdvance i v).regs[0] = s.regs[0] := by
  simp [State.writeAndAdvance]

@[simp] theorem writeShiftRight_entry_zero (s : State) (i : RegIdx) (v : Word) :
    (s.writeShiftRight i v).regs[0] = s.regs[0] := by
  unfold State.writeShiftRight; split <;> simp

@[simp] theorem linkAndJump_entry_zero (s : State) (i : RegIdx) (t : Word) :
    (s.linkAndJump i t).regs[0] = s.regs[0] := by
  simp [State.linkAndJump]

end Sys2Proof.Machine
end

