-- ==== Sys2Proof/Laws/Ops.lean ====
section
/-! SUPPORT. One lemma per shared operation that says everything it can do; later proofs cite these. -/

namespace Sys2Proof.Machine

/-- dataIndex with bit 31 clear (20_memory.md R44). -/
theorem dataIndex_nonneg {p : Params} {ea : Word} (h : ea.getLsbD 31 = false) :
    dataIndex p ea = some (ea.toNat % p.memWords) := if_pos h

/-- dataIndex with bit 31 set, under each policy (R45). -/
theorem dataIndex_neg {p : Params} {ea : Word} (h : ea.getLsbD 31 = true) :
    dataIndex p ea = match p.negEaPolicy with
      | .fatal => none
      | .unsignedMod32 => some (ea.toNat % p.memWords)
      | .signExtMod64 => some ((2 ^ 64 + ea.toInt).toNat % p.memWords) :=
  if_neg (by rw [h]; decide)

/-- The access raises Fatal exactly when bit 31 is set and the policy is Fatal (R45). -/
theorem dataIndex_eq_none_iff {p : Params} {ea : Word} :
    dataIndex p ea = none ↔ ea.getLsbD 31 = true ∧ p.negEaPolicy = .fatal := by
  cases h : ea.getLsbD 31
  · simp [dataIndex_nonneg h]
  · rw [dataIndex_neg h]; cases p.negEaPolicy <;> simp

/-- A data index is a word of the array (R44, R48). -/
theorem dataIndex_lt {p : Params} {ea : Word} {idx : Nat} (hp : 1 ≤ p.memWords)
    (h : dataIndex p ea = some idx) : idx < p.memWords := by
  have hlt : ∀ n, n % p.memWords < p.memWords := fun n => Nat.mod_lt n hp
  cases hb : ea.getLsbD 31
  · rw [dataIndex_nonneg hb] at h; cases h; exact hlt _
  · rw [dataIndex_neg hb] at h
    split at h
    · cases h
    · cases h; exact hlt _
    · cases h; exact hlt _

/-- A load raises Fatal or writes rd and advances (42_load_store.md R116). -/
theorem loadReg_cases (s : State) (rd rs1 : RegIdx) (off : BitVec 12) (n : Width)
    (ext : BitVec n.bits → Word) :
    (dataIndex s.params (s.effectiveAddress rs1 off) = none ∧
      s.loadReg rd rs1 off n ext = s.raiseFatal .dataAddressNegative) ∨
    ∃ idx, dataIndex s.params (s.effectiveAddress rs1 off) = some idx ∧
      s.loadReg rd rs1 off n ext = s.writeAndAdvance rd (ext (s.memRead idx n)) := by
  unfold State.loadReg
  split
  · rename_i h; exact .inl ⟨h, rfl⟩
  · rename_i idx h; exact .inr ⟨idx, h, rfl⟩

/-- A store raises Fatal or writes one word and advances (R123). -/
theorem storeReg_cases (s : State) (rs1 rs2 : RegIdx) (off : BitVec 12) (n : Width) :
    (dataIndex s.params (s.effectiveAddress rs1 off) = none ∧
      s.storeReg rs1 rs2 off n = s.raiseFatal .dataAddressNegative) ∨
    ∃ idx, dataIndex s.params (s.effectiveAddress rs1 off) = some idx ∧
      s.storeReg rs1 rs2 off n = (s.memWrite idx n (s.readReg rs2)).advance := by
  unfold State.storeReg
  split
  · rename_i h; exact .inl ⟨h, rfl⟩
  · rename_i idx h; exact .inr ⟨idx, h, rfl⟩

/-- Fetch answers the word at u(pc) div 4 when that word exists (20_memory.md R41). -/
theorem fetch_eq_some_iff {s : State} {w : Word} :
    s.fetch = some w ↔ s.pc.toNat / 4 < s.params.memWords ∧ s.mem.read (s.pc.toNat / 4) = w := by
  unfold State.fetch State.fetchIndex
  split <;> simp_all

theorem fetch_eq_none_iff {s : State} :
    s.fetch = none ↔ s.params.memWords ≤ s.pc.toNat / 4 := by
  unfold State.fetch State.fetchIndex
  split <;> simp_all

/-- The register file after each operation that leaves it alone or writes one entry, as an invariant of
the entry of x0. -/
theorem loadReg_entry_zero (s : State) (rd rs1 : RegIdx) (off : BitVec 12) (n : Width)
    (ext : BitVec n.bits → Word) : (s.loadReg rd rs1 off n ext).regs[0] = s.regs[0] := by
  rcases loadReg_cases s rd rs1 off n ext with ⟨_, h⟩ | ⟨_, _, h⟩ <;> rw [h] <;> simp

/-- Bit i of a byte, half-word or word merged into another word (00_scope.md R14). -/
theorem getLsbD_mergeLow (n : Width) (old v : Word) (i : Nat) (hi : i < 32) :
    (mergeLow n old v).getLsbD i = if i < n.bits then v.getLsbD i else old.getLsbD i := by
  unfold mergeLow
  by_cases h : i < n.bits
  · simp [h, hi]
  · simp [h, hi, BitVec.getLsbD_setWidth]

/-- A word store replaces the word (R126). -/
@[simp] theorem mergeLow_word (old v : Word) : mergeLow .word old v = v := by
  apply BitVec.eq_of_getLsbD_eq
  intro i hi
  rw [getLsbD_mergeLow _ _ _ _ hi, if_pos (show i < Width.word.bits from hi)]

/-- The bits of a jump target: bit 0 is cleared, the others stay (41_control_transfer.md R104). -/
theorem getLsbD_clearBit0 (t : Word) (i : Nat) :
    (clearBit0 t).getLsbD i = (decide (i ≠ 0) && t.getLsbD i) := by
  unfold clearBit0
  by_cases hi : i < 32
  · rw [BitVec.getLsbD_and]
    have : ∀ j < 32, (0xFFFFFFFE#32).getLsbD j = decide (j ≠ 0) := by decide
    rw [this i hi, Bool.and_comm]
  · simp [BitVec.getLsbD_of_ge _ _ (Nat.le_of_not_lt hi)]

/-- The shift amount is x[rs2] mod 32 (44_alu_register.md R144). -/
theorem shiftAmount_eq (b : Word) : shiftAmount b = b.toNat % 32 := by
  simp [shiftAmount]

end Sys2Proof.Machine
end

