-- ==== Sys2Proof/Laws/Exec.lean ====
section
/-! SUPPORT. What an executed instruction can do, said once: the inversion of exec. -/

namespace Sys2Proof.Machine

/-- The forms a next state of exec can take. -/
inductive Effect (i : Instr) (s : State) : State → Prop where
  /-- The instruction raised Fatal. -/
  | fatal (r : FatalReason) : Effect i s (s.raiseFatal r)
  /-- The halt word. -/
  | halt : i = .halt → Effect i s s.enterHalt
  /-- A no-op. -/
  | advance : Effect i s s.advance
  /-- A register result, with pc + 4. -/
  | result (rd : RegIdx) (v : Word) : Effect i s (s.writeAndAdvance rd v)
  /-- The result of SRL or SRA. -/
  | shiftRight (rd : RegIdx) (v : Word) : Effect i s (s.writeShiftRight rd v)
  /-- A jump. -/
  | jump (rd : RegIdx) (t : Word) : Effect i s (s.linkAndJump rd t)
  /-- A branch, with the offset it holds. -/
  | branch (c : Bool) (rs1 rs2 : RegIdx) (off : BitVec 13)
      (h : i = .beq rs1 rs2 off ∨ i = .bne rs1 rs2 off ∨ i = .blt rs1 rs2 off ∨ i = .bge rs1 rs2 off ∨
        i = .bltu rs1 rs2 off ∨ i = .bgeu rs1 rs2 off) : Effect i s (s.branch c (sext13 off))
  /-- A store, at the index of its effective address. -/
  | store (rs1 rs2 : RegIdx) (off : BitVec 12) (idx : Nat) (n : Width)
      (h : i = .sb rs1 rs2 off ∨ i = .sh rs1 rs2 off ∨ i = .sw rs1 rs2 off)
      (hidx : dataIndex s.params (s.effectiveAddress rs1 off) = some idx) :
      Effect i s (s.memWrite idx n (s.readReg rs2)).advance

theorem effect_loadReg (i : Instr) (s : State) (rd rs1 : RegIdx) (off : BitVec 12) (n : Width)
    (ext : BitVec n.bits → Word) : Effect i s (s.loadReg rd rs1 off n ext) := by
  rcases loadReg_cases s rd rs1 off n ext with ⟨_, h⟩ | ⟨idx, _, h⟩
  · rw [h]; exact .fatal _
  · rw [h]; exact .result _ _

theorem effect_storeReg (i : Instr) (s : State) (rs1 rs2 : RegIdx) (off : BitVec 12) (n : Width)
    (hi : i = .sb rs1 rs2 off ∨ i = .sh rs1 rs2 off ∨ i = .sw rs1 rs2 off) :
    Effect i s (s.storeReg rs1 rs2 off n) := by
  rcases storeReg_cases s rs1 rs2 off n with ⟨_, h⟩ | ⟨idx, hidx, h⟩
  · rw [h]; exact .fatal _
  · rw [h]; exact .store rs1 rs2 off idx n hi hidx

/-- The inversion of exec: a next state of it has one of the forms of Effect. -/
theorem exec_effect {i : Instr} {s t : State} (h : exec i s = .next t) : Effect i s t := by
  cases i with
  | halt => cases h; exact .halt rfl
  | lui rd imm => cases h; exact .result _ _
  | auipc rd imm => cases h; exact .result _ _
  | jal rd off => cases h; exact .jump _ _
  | jalr rd rs1 off => cases h; exact .jump _ _
  | fatalJalrFunct3 w => cases h; exact .fatal _
  | beq rs1 rs2 off => cases h; exact .branch _ rs1 rs2 off (by simp)
  | bne rs1 rs2 off => cases h; exact .branch _ rs1 rs2 off (by simp)
  | blt rs1 rs2 off => cases h; exact .branch _ rs1 rs2 off (by simp)
  | bge rs1 rs2 off => cases h; exact .branch _ rs1 rs2 off (by simp)
  | bltu rs1 rs2 off => cases h; exact .branch _ rs1 rs2 off (by simp)
  | bgeu rs1 rs2 off => cases h; exact .branch _ rs1 rs2 off (by simp)
  | fatalBranchFunct3 w => cases h; exact .fatal _
  | lb rd rs1 off => cases h; exact effect_loadReg _ s rd rs1 off .byte _
  | lh rd rs1 off => cases h; exact effect_loadReg _ s rd rs1 off .half _
  | lw rd rs1 off => cases h; exact effect_loadReg _ s rd rs1 off .word _
  | lbu rd rs1 off => cases h; exact effect_loadReg _ s rd rs1 off .byte _
  | lhu rd rs1 off => cases h; exact effect_loadReg _ s rd rs1 off .half _
  | fatalLoadFunct3 w => cases h; exact .fatal _
  | sb rs1 rs2 off => cases h; exact effect_storeReg _ s rs1 rs2 off .byte (by simp)
  | sh rs1 rs2 off => cases h; exact effect_storeReg _ s rs1 rs2 off .half (by simp)
  | sw rs1 rs2 off => cases h; exact effect_storeReg _ s rs1 rs2 off .word (by simp)
  | fatalStoreFunct3 w => cases h; exact .fatal _
  | addi rd rs1 imm => cases h; exact .result _ _
  | slti rd rs1 imm => cases h; exact .result _ _
  | sltiu rd rs1 imm => cases h; exact .result _ _
  | xori rd rs1 imm => cases h; exact .result _ _
  | ori rd rs1 imm => cases h; exact .result _ _
  | andi rd rs1 imm => cases h; exact .result _ _
  | slli rd rs1 imm => cases h; exact .advance
  | srli rd rs1 shamt => cases h; exact .advance
  | srai rd rs1 shamt => cases h; exact .advance
  | srxi rd rs1 shamt f7 => cases h; exact .advance
  | add rd rs1 rs2 => cases h; exact .result _ _
  | sub rd rs1 rs2 => cases h; exact .result _ _
  | fatalOpFunct7 w => cases h; exact .fatal _
  | sll rd rs1 rs2 f7 => cases h; exact .result _ _
  | slt rd rs1 rs2 f7 => cases h; exact .result _ _
  | sltu rd rs1 rs2 f7 => cases h; exact .result _ _
  | fatalOpXor w => cases h; exact .fatal _
  | srl rd rs1 rs2 => cases h; exact .shiftRight _ _
  | sra rd rs1 rs2 f7 => cases h; exact .shiftRight _ _
  | or rd rs1 rs2 f7 => cases h; exact .result _ _
  | and rd rs1 rs2 f7 => cases h; exact .result _ _
  | fatalMiscMem w => cases h; exact .fatal _
  | fatalSystem w => cases h; exact .fatal _
  | fatalInvalidOpcode w => cases h; exact .fatal _

/-- The inversion of step: it stopped on the fetch, or it is exec of the fetched word. -/
theorem step_cases {s t : State} (h : step s = .next t) :
    (∀ r, s.status ≠ .fatal r) ∧
      ((s.fetch = none ∧ t = s.raiseFatal .fetchOutOfBounds) ∨
        ∃ w, s.fetch = some w ∧ exec (decode w) s.beginExecute = .next t) := by
  have go : fetchAndExecute s = .next t →
      (s.fetch = none ∧ t = s.raiseFatal .fetchOutOfBounds) ∨
        ∃ w, s.fetch = some w ∧ exec (decode w) s.beginExecute = .next t := by
    intro hf
    unfold fetchAndExecute at hf
    split at hf
    · rename_i hn; cases hf; exact .inl ⟨hn, rfl⟩
    · rename_i w hw; exact .inr ⟨w, hw, hf⟩
  unfold step at h
  split at h
  · cases h
  · rename_i hs; exact ⟨by simp [hs], go h⟩
  · rename_i hs; exact ⟨by simp [hs], go h⟩

end Sys2Proof.Machine
end

