-- ==== Sys2Proof/Laws/PerInstr.lean ====
section
/-! SUPPORT. Statements made per instruction. Family EncodeOpcode: the encoded word of a well-formed
instruction has the opcode of its row (30_encoding.md R62), or is the halt word, or has an opcode the
block lacks. -/

namespace Sys2Proof.Laws.EncodeOpcode

/-- The opcode of the row, for the rows that fix one (R62, R97). -/
def rowOpcode : Instr → Option (BitVec 7)
  | .halt => some 0x00#7
  | .lui _ _ => some 0x37#7
  | .auipc _ _ => some 0x17#7
  | .jal _ _ => some 0x6F#7
  | .jalr _ _ _ => some 0x67#7
  | .fatalJalrFunct3 _ => some 0x67#7
  | .beq _ _ _ => some 0x63#7
  | .bne _ _ _ => some 0x63#7
  | .blt _ _ _ => some 0x63#7
  | .bge _ _ _ => some 0x63#7
  | .bltu _ _ _ => some 0x63#7
  | .bgeu _ _ _ => some 0x63#7
  | .fatalBranchFunct3 _ => some 0x63#7
  | .lb _ _ _ => some 0x03#7
  | .lh _ _ _ => some 0x03#7
  | .lw _ _ _ => some 0x03#7
  | .lbu _ _ _ => some 0x03#7
  | .lhu _ _ _ => some 0x03#7
  | .fatalLoadFunct3 _ => some 0x03#7
  | .sb _ _ _ => some 0x23#7
  | .sh _ _ _ => some 0x23#7
  | .sw _ _ _ => some 0x23#7
  | .fatalStoreFunct3 _ => some 0x23#7
  | .addi _ _ _ => some 0x13#7
  | .slti _ _ _ => some 0x13#7
  | .sltiu _ _ _ => some 0x13#7
  | .xori _ _ _ => some 0x13#7
  | .ori _ _ _ => some 0x13#7
  | .andi _ _ _ => some 0x13#7
  | .slli _ _ _ => some 0x13#7
  | .srli _ _ _ => some 0x13#7
  | .srai _ _ _ => some 0x13#7
  | .srxi _ _ _ _ => some 0x13#7
  | .add _ _ _ => some 0x33#7
  | .sub _ _ _ => some 0x33#7
  | .fatalOpFunct7 _ => some 0x33#7
  | .sll _ _ _ _ => some 0x33#7
  | .slt _ _ _ _ => some 0x33#7
  | .sltu _ _ _ _ => some 0x33#7
  | .fatalOpXor _ => some 0x33#7
  | .srl _ _ _ => some 0x33#7
  | .sra _ _ _ _ => some 0x33#7
  | .or _ _ _ _ => some 0x33#7
  | .and _ _ _ _ => some 0x33#7
  | .fatalMiscMem _ => some 0x0F#7
  | .fatalSystem _ => some 0x73#7
  | .fatalInvalidOpcode _ => none

/-- A well-formed instruction's word has its row's opcode; a word of the last row has none of the nine. -/
def Statement (i : Instr) : Prop :=
  i.wellFormed = true →
    match rowOpcode i with
    | some op => opcode (encode i) = op
    | none => isCoreOpcode (opcode (encode i)) = false

theorem halt : Statement .halt := fun _ => (by decide : opcode 0#32 = 0x00#7)

theorem lui (rd : RegIdx) (imm : BitVec 20) : Statement (.lui rd imm) :=
  fun _ => opcode_packU _ _ _

theorem auipc (rd : RegIdx) (imm : BitVec 20) : Statement (.auipc rd imm) :=
  fun _ => opcode_packU _ _ _

theorem jal (rd : RegIdx) (off : BitVec 21) : Statement (.jal rd off) :=
  fun _ => opcode_packJ _ _ _

theorem jalr (rd rs1 : RegIdx) (off : BitVec 12) : Statement (.jalr rd rs1 off) :=
  fun _ => opcode_packI _ _ _ _ _

theorem fatalJalrFunct3 (w : Word) : Statement (.fatalJalrFunct3 w) := by
  intro h
  simp only [Instr.wellFormed, Bool.and_eq_true, beq_iff_eq] at h
  exact h.1

theorem beq (rs1 rs2 : RegIdx) (off : BitVec 13) : Statement (.beq rs1 rs2 off) :=
  fun _ => opcode_packB _ _ _ _ _

theorem bne (rs1 rs2 : RegIdx) (off : BitVec 13) : Statement (.bne rs1 rs2 off) :=
  fun _ => opcode_packB _ _ _ _ _

theorem blt (rs1 rs2 : RegIdx) (off : BitVec 13) : Statement (.blt rs1 rs2 off) :=
  fun _ => opcode_packB _ _ _ _ _

theorem bge (rs1 rs2 : RegIdx) (off : BitVec 13) : Statement (.bge rs1 rs2 off) :=
  fun _ => opcode_packB _ _ _ _ _

theorem bltu (rs1 rs2 : RegIdx) (off : BitVec 13) : Statement (.bltu rs1 rs2 off) :=
  fun _ => opcode_packB _ _ _ _ _

theorem bgeu (rs1 rs2 : RegIdx) (off : BitVec 13) : Statement (.bgeu rs1 rs2 off) :=
  fun _ => opcode_packB _ _ _ _ _

theorem fatalBranchFunct3 (w : Word) : Statement (.fatalBranchFunct3 w) := by
  intro h
  simp only [Instr.wellFormed, Bool.and_eq_true, beq_iff_eq] at h
  exact h.1

theorem lb (rd rs1 : RegIdx) (off : BitVec 12) : Statement (.lb rd rs1 off) :=
  fun _ => opcode_packI _ _ _ _ _

theorem lh (rd rs1 : RegIdx) (off : BitVec 12) : Statement (.lh rd rs1 off) :=
  fun _ => opcode_packI _ _ _ _ _

theorem lw (rd rs1 : RegIdx) (off : BitVec 12) : Statement (.lw rd rs1 off) :=
  fun _ => opcode_packI _ _ _ _ _

theorem lbu (rd rs1 : RegIdx) (off : BitVec 12) : Statement (.lbu rd rs1 off) :=
  fun _ => opcode_packI _ _ _ _ _

theorem lhu (rd rs1 : RegIdx) (off : BitVec 12) : Statement (.lhu rd rs1 off) :=
  fun _ => opcode_packI _ _ _ _ _

theorem fatalLoadFunct3 (w : Word) : Statement (.fatalLoadFunct3 w) := by
  intro h
  simp only [Instr.wellFormed, Bool.and_eq_true, beq_iff_eq] at h
  exact h.1

theorem sb (rs1 rs2 : RegIdx) (off : BitVec 12) : Statement (.sb rs1 rs2 off) :=
  fun _ => opcode_packS _ _ _ _ _

theorem sh (rs1 rs2 : RegIdx) (off : BitVec 12) : Statement (.sh rs1 rs2 off) :=
  fun _ => opcode_packS _ _ _ _ _

theorem sw (rs1 rs2 : RegIdx) (off : BitVec 12) : Statement (.sw rs1 rs2 off) :=
  fun _ => opcode_packS _ _ _ _ _

theorem fatalStoreFunct3 (w : Word) : Statement (.fatalStoreFunct3 w) := by
  intro h
  simp only [Instr.wellFormed, Bool.and_eq_true, beq_iff_eq] at h
  exact h.1

theorem addi (rd rs1 : RegIdx) (imm : BitVec 12) : Statement (.addi rd rs1 imm) :=
  fun _ => opcode_packI _ _ _ _ _

theorem slti (rd rs1 : RegIdx) (imm : BitVec 12) : Statement (.slti rd rs1 imm) :=
  fun _ => opcode_packI _ _ _ _ _

theorem sltiu (rd rs1 : RegIdx) (imm : BitVec 12) : Statement (.sltiu rd rs1 imm) :=
  fun _ => opcode_packI _ _ _ _ _

theorem xori (rd rs1 : RegIdx) (imm : BitVec 12) : Statement (.xori rd rs1 imm) :=
  fun _ => opcode_packI _ _ _ _ _

theorem ori (rd rs1 : RegIdx) (imm : BitVec 12) : Statement (.ori rd rs1 imm) :=
  fun _ => opcode_packI _ _ _ _ _

theorem andi (rd rs1 : RegIdx) (imm : BitVec 12) : Statement (.andi rd rs1 imm) :=
  fun _ => opcode_packI _ _ _ _ _

theorem slli (rd rs1 : RegIdx) (imm : BitVec 12) : Statement (.slli rd rs1 imm) :=
  fun _ => opcode_packI _ _ _ _ _

theorem srli (rd rs1 : RegIdx) (shamt : BitVec 5) : Statement (.srli rd rs1 shamt) :=
  fun _ => opcode_packShift _ _ _ _ _ _

theorem srai (rd rs1 : RegIdx) (shamt : BitVec 5) : Statement (.srai rd rs1 shamt) :=
  fun _ => opcode_packShift _ _ _ _ _ _

theorem srxi (rd rs1 : RegIdx) (shamt : BitVec 5) (funct7 : BitVec 7) : Statement (.srxi rd rs1 shamt funct7) :=
  fun _ => opcode_packShift _ _ _ _ _ _

theorem add (rd rs1 rs2 : RegIdx) : Statement (.add rd rs1 rs2) :=
  fun _ => opcode_packR _ _ _ _ _ _

theorem sub (rd rs1 rs2 : RegIdx) : Statement (.sub rd rs1 rs2) :=
  fun _ => opcode_packR _ _ _ _ _ _

theorem fatalOpFunct7 (w : Word) : Statement (.fatalOpFunct7 w) := by
  intro h
  simp only [Instr.wellFormed, Bool.and_eq_true, beq_iff_eq] at h
  exact h.1.1.1

theorem sll (rd rs1 rs2 : RegIdx) (funct7 : BitVec 7) : Statement (.sll rd rs1 rs2 funct7) :=
  fun _ => opcode_packR _ _ _ _ _ _

theorem slt (rd rs1 rs2 : RegIdx) (funct7 : BitVec 7) : Statement (.slt rd rs1 rs2 funct7) :=
  fun _ => opcode_packR _ _ _ _ _ _

theorem sltu (rd rs1 rs2 : RegIdx) (funct7 : BitVec 7) : Statement (.sltu rd rs1 rs2 funct7) :=
  fun _ => opcode_packR _ _ _ _ _ _

theorem fatalOpXor (w : Word) : Statement (.fatalOpXor w) := by
  intro h
  simp only [Instr.wellFormed, Bool.and_eq_true, beq_iff_eq] at h
  exact h.1

theorem srl (rd rs1 rs2 : RegIdx) : Statement (.srl rd rs1 rs2) :=
  fun _ => opcode_packR _ _ _ _ _ _

theorem sra (rd rs1 rs2 : RegIdx) (funct7 : BitVec 7) : Statement (.sra rd rs1 rs2 funct7) :=
  fun _ => opcode_packR _ _ _ _ _ _

theorem or (rd rs1 rs2 : RegIdx) (funct7 : BitVec 7) : Statement (.or rd rs1 rs2 funct7) :=
  fun _ => opcode_packR _ _ _ _ _ _

theorem and (rd rs1 rs2 : RegIdx) (funct7 : BitVec 7) : Statement (.and rd rs1 rs2 funct7) :=
  fun _ => opcode_packR _ _ _ _ _ _

theorem fatalMiscMem (w : Word) : Statement (.fatalMiscMem w) := by
  intro h
  simp only [Instr.wellFormed, beq_iff_eq] at h
  exact h

theorem fatalSystem (w : Word) : Statement (.fatalSystem w) := by
  intro h
  simp only [Instr.wellFormed, beq_iff_eq] at h
  exact h

theorem fatalInvalidOpcode (w : Word) : Statement (.fatalInvalidOpcode w) := by
  intro h
  simp only [Instr.wellFormed, Bool.and_eq_true, Bool.not_eq_true'] at h
  exact h.1.1.2

end Sys2Proof.Laws.EncodeOpcode
end

