-- ==== Sys2Proof/Laws/Run.lean ====
section
/-! SUPPORT. Runs, one operation at a time: what runFor and runOps do at their first step and at their last. -/

namespace Sys2Proof.Machine

@[simp] theorem runFor_zero (s : State) : runFor 0 s = .next s := rfl

/-- A run of k + 1 steps is a step and then a run of k. -/
theorem runFor_succ (k : Nat) (s : State) :
    runFor (k + 1) s = match step s with
      | .next t => runFor k t
      | .fault r => .fault r
      | .refused r => .refused r := by
  have h : runFor (k + 1) s = _ := Host.Core.run.eq_2 Sys2Proof.core s k
  have hc : Sys2Proof.core.step s = step s := rfl
  rw [h, hc]
  cases step s <;> rfl

theorem runFor_succ_of_next {s t : State} (k : Nat) (h : step s = .next t) :
    runFor (k + 1) s = runFor k t := by
  rw [runFor_succ, h]

/-- A step after k steps makes k + 1 steps. -/
theorem runFor_snoc {s t u : State} {k : Nat} (h : runFor k s = .next t) (hu : step t = .next u) :
    runFor (k + 1) s = .next u := by
  induction k generalizing s with
  | zero => cases h; rw [runFor_succ_of_next 0 hu, runFor_zero]
  | succ k ih =>
    rw [runFor_succ] at h
    split at h
    · rename_i v hv; rw [runFor_succ_of_next _ hv]; exact ih h
    · cases h
    · cases h

/-- The last step of a run of k + 1. -/
theorem runFor_succ_split {s u : State} {k : Nat} (h : runFor (k + 1) s = .next u) :
    ∃ t, runFor k s = .next t ∧ step t = .next u := by
  induction k generalizing s with
  | zero =>
    rw [runFor_succ] at h
    split at h
    · rename_i t ht; cases h; exact ⟨s, rfl, ht⟩
    · cases h
    · cases h
  | succ k ih =>
    rw [runFor_succ] at h
    split at h
    · rename_i v hv
      obtain ⟨t, ht, hu⟩ := ih h
      exact ⟨t, by rw [runFor_succ_of_next _ hv]; exact ht, hu⟩
    · cases h
    · cases h

/-- The status after k operations is one status. -/
theorem StatusAfter.unique {ops : Nat → HostOp} {s : State} {k : Nat} {a b : RunStatus}
    (ha : StatusAfter ops s k a) (hb : StatusAfter ops s k b) : a = b := by
  obtain ⟨t, ht, rfl⟩ := ha
  obtain ⟨u, hu, rfl⟩ := hb
  rw [ht] at hu; cases hu; rfl

@[simp] theorem operate_step (s : State) : s.operate .step = step s := rfl

@[simp] theorem operate_load (s : State) (off : Nat) (ws : List Word) :
    s.operate (.load off ws) = s.load off ws := rfl

@[simp] theorem runOps_zero (ops : Nat → HostOp) (s : State) : runOps ops 0 s = .next s := rfl

/-- The last operation of k + 1. -/
theorem runOps_succ_of_next {ops : Nat → HostOp} {s t : State} {k : Nat} (h : runOps ops k s = .next t) :
    runOps ops (k + 1) s = t.operate (ops k) := by
  simp only [runOps, h]

/-- k + 1 operations have a next state exactly when k have one on which the next operation has one. -/
theorem runOps_succ_eq_next {ops : Nat → HostOp} {s u : State} {k : Nat} :
    runOps ops (k + 1) s = .next u ↔ ∃ t, runOps ops k s = .next t ∧ t.operate (ops k) = .next u := by
  constructor
  · intro h
    cases hr : runOps ops k s with
    | next t => exact ⟨t, rfl, by rw [← runOps_succ_of_next hr]; exact h⟩
    | fault f => simp [runOps, hr] at h
    | refused r => simp [runOps, hr] at h
  · rintro ⟨t, ht, hu⟩
    rw [runOps_succ_of_next ht, hu]

/-- The host that only steps makes the run of steps. -/
theorem runOps_stepsOnly (k : Nat) (s t : State) : runOps stepsOnly k s = .next t ↔ runFor k s = .next t := by
  induction k generalizing t with
  | zero => exact Iff.rfl
  | succ k ih =>
    rw [runOps_succ_eq_next]
    constructor
    · rintro ⟨u, hu, ht⟩
      exact runFor_snoc ((ih u).1 hu) ht
    · intro h
      obtain ⟨u, hu, ht⟩ := runFor_succ_split h
      exact ⟨u, (ih u).2 hu, ht⟩

/-- What a load can do: it stops after Fatal, writes the words, or raises Fatal (70_reset_and_hazards.md R181
to R183). -/
theorem load_cases {s t : State} {off : Nat} {ws : List Word} (h : s.load off ws = .next t) :
    (∀ r, s.status ≠ .fatal r) ∧
      ((s.params.memWords < off + ws.length ∧ t = s.raiseFatal .loadOutOfBounds) ∨
        (off + ws.length ≤ s.params.memWords ∧ t = { s with mem := s.mem.writeWords off ws })) := by
  unfold State.load at h
  split at h
  · cases h
  all_goals
    rename_i hs
    refine ⟨by simp [hs], ?_⟩
    split at h
    · rename_i hlt; cases h; exact .inl ⟨hlt, rfl⟩
    · rename_i hle; cases h; exact .inr ⟨Nat.le_of_not_lt hle, rfl⟩

/-- The fetched word depends on pc, memory and parameters only. -/
theorem fetch_congr {s t : State} (hpc : t.pc = s.pc) (hmem : t.mem = s.mem) (hp : t.params = s.params) :
    t.fetch = s.fetch := by
  unfold State.fetch State.fetchIndex
  rw [hpc, hmem, hp]

/-- exec always answers a next state. -/
theorem exec_next (i : Instr) (s : State) : ∃ t, exec i s = .next t := by
  cases i <;> exact ⟨_, rfl⟩

end Sys2Proof.Machine
end

