-- ==== Sys2Proof/Tests/Slice0.lean ====
section
/-! SUPPORT. The model's own tests. Words and expected values are those of the spec: the examples of
40_upper_immediate.md to 45_step_halt_invalid.md and the vectors of 95_test_vectors.md, named by their id.
The last section holds, for each statement with hypotheses, a state and operands that meet them. -/

namespace Sys2Proof.Tests

open Sys2Proof Sys2Proof.Machine Sys2Proof.Claims

/-- A block of 64 words, Running at pc, with these registers and words. -/
def block (pc : Word) (regs : List (RegIdx × Word)) (mem : List (Nat × Word)) : State :=
  { params := defaultParams
    pc := pc
    regs := regs.foldl (fun v r => v.set r.1.val r.2) (Vector.replicate 32 0#32)
    mem := mem.foldl (fun m c => m.write c.1 c.2) []
    cycles := 0
    status := .running }

/-- The block of the L2 vectors: the word at M[16], pc = 0x40. -/
def vector (w : Word) (regs : List (RegIdx × Word)) (mem : List (Nat × Word)) : State :=
  block 0x40#32 regs ((16, w) :: mem)

/-- The next state of an outcome. -/
def next? : StepOutcome → Option State
  | .next t => some t
  | .fault _ => none
  | .refused _ => none

/-- x[r], pc and status after one step. -/
def after (s : State) (r : RegIdx) : Option (Word × Word × RunStatus) :=
  (next? (step s)).map (fun t => (t.readReg r, t.pc, t.status))

/-- M[k], pc and status after one step. -/
def afterMem (s : State) (k : Nat) : Option (Word × Word × RunStatus) :=
  (next? (step s)).map (fun t => (t.mem.read k, t.pc, t.status))

/-- cycles, pc and status after one step. -/
def afterCount (s : State) : Option (Nat × Word × RunStatus) :=
  (next? (step s)).map (fun t => (t.cycles, t.pc, t.status))

/-! ### WellFormed: an ill-formed term for each check -/

theorem test_wf_jal : (Instr.jal 1 3#21).wellFormed = false := by decide
theorem test_wf_beq : (Instr.beq 1 2 1#13).wellFormed = false := by decide
theorem test_wf_bne : (Instr.bne 1 2 1#13).wellFormed = false := by decide
theorem test_wf_blt : (Instr.blt 1 2 1#13).wellFormed = false := by decide
theorem test_wf_bge : (Instr.bge 1 2 1#13).wellFormed = false := by decide
theorem test_wf_bltu : (Instr.bltu 1 2 1#13).wellFormed = false := by decide
theorem test_wf_bgeu : (Instr.bgeu 1 2 1#13).wellFormed = false := by decide
theorem test_wf_srxi : (Instr.srxi 1 2 3#5 0x00#7).wellFormed = false ∧
    (Instr.srxi 1 2 3#5 0x20#7).wellFormed = false := by decide
theorem test_wf_sra : (Instr.sra 1 2 3 0x00#7).wellFormed = false := by decide
theorem test_wf_fatalJalrFunct3 : (Instr.fatalJalrFunct3 0x00808167#32).wellFormed = false ∧
    (Instr.fatalJalrFunct3 0x00001063#32).wellFormed = false := by decide
theorem test_wf_fatalBranchFunct3 : (Instr.fatalBranchFunct3 0x00208463#32).wellFormed = false ∧
    (Instr.fatalBranchFunct3 0x00002003#32).wellFormed = false := by decide
theorem test_wf_fatalLoadFunct3 : (Instr.fatalLoadFunct3 0x02802183#32).wellFormed = false ∧
    (Instr.fatalLoadFunct3 0x0020B023#32).wellFormed = false := by decide
theorem test_wf_fatalStoreFunct3 : (Instr.fatalStoreFunct3 0x02102423#32).wellFormed = false ∧
    (Instr.fatalStoreFunct3 0x00003283#32).wellFormed = false := by decide
theorem test_wf_fatalOpFunct7 : (Instr.fatalOpFunct7 0x00730533#32).wellFormed = false ∧
    (Instr.fatalOpFunct7 0x40730533#32).wellFormed = false ∧
    (Instr.fatalOpFunct7 0x02001033#32).wellFormed = false ∧
    (Instr.fatalOpFunct7 0x02000013#32).wellFormed = false := by decide
theorem test_wf_fatalOpXor : (Instr.fatalOpXor 0x00736533#32).wellFormed = false ∧
    (Instr.fatalOpXor 0xFFF0C293#32).wellFormed = false := by decide
theorem test_wf_fatalMiscMem : (Instr.fatalMiscMem 0x00000073#32).wellFormed = false := by decide
theorem test_wf_fatalSystem : (Instr.fatalSystem 0x0000000F#32).wellFormed = false := by decide
theorem test_wf_fatalInvalidOpcode : (Instr.fatalInvalidOpcode 0x00000000#32).wellFormed = false ∧
    (Instr.fatalInvalidOpcode 0x00000013#32).wellFormed = false ∧
    (Instr.fatalInvalidOpcode 0x0000000F#32).wellFormed = false ∧
    (Instr.fatalInvalidOpcode 0x00000073#32).wellFormed = false := by decide

/-! ### Decoding: a word of the spec for every row -/

theorem test_decode_halt : decode 0x00000000#32 = .halt := by decide
theorem test_decode_upper : decode 0x123452B7#32 = .lui 5 0x12345#20 ∧
    decode 0x00001317#32 = .auipc 6 1#20 := by decide
theorem test_decode_jumps : decode 0x008000EF#32 = .jal 1 8#21 ∧
    decode 0xFFDFF06F#32 = .jal 0 (-4 : BitVec 21) ∧ decode 0x800000EF#32 = .jal 1 (-1048576 : BitVec 21) ∧
    decode 0x7FFFF0EF#32 = .jal 1 1048574#21 ∧ decode 0x00808167#32 = .jalr 2 1 8#12 ∧
    decode 0x000090E7#32 = .fatalJalrFunct3 0x000090E7#32 := by decide
theorem test_decode_branches : decode 0x80208063#32 = .beq 1 2 (-4096 : BitVec 13) ∧
    decode 0xFE029CE3#32 = .bne 5 0 (-8 : BitVec 13) ∧ decode 0x7E20CFE3#32 = .blt 1 2 4094#13 ∧
    decode 0xFE20DFE3#32 = .bge 1 2 (-2 : BitVec 13) ∧ decode 0x00106663#32 = .bltu 0 1 12#13 ∧
    decode 0x0000F063#32 = .bgeu 1 0 0#13 ∧
    decode 0x0020A463#32 = .fatalBranchFunct3 0x0020A463#32 ∧
    decode 0x0020B463#32 = .fatalBranchFunct3 0x0020B463#32 := by decide
theorem test_decode_loads : decode 0x02800203#32 = .lb 4 0 40#12 ∧ decode 0x02801283#32 = .lh 5 0 40#12 ∧
    decode 0xFFC0A283#32 = .lw 5 1 (-4 : BitVec 12) ∧ decode 0x02804303#32 = .lbu 6 0 40#12 ∧
    decode 0x7FF05283#32 = .lhu 5 0 2047#12 ∧ decode 0x00003283#32 = .fatalLoadFunct3 0x00003283#32 ∧
    decode 0x00006283#32 = .fatalLoadFunct3 0x00006283#32 := by decide
theorem test_decode_stores : decode 0x02200423#32 = .sb 0 2 40#12 ∧ decode 0x002090A3#32 = .sh 1 2 1#12 ∧
    decode 0xFE20AE23#32 = .sw 1 2 (-4 : BitVec 12) ∧
    decode 0x0020B023#32 = .fatalStoreFunct3 0x0020B023#32 := by decide
theorem test_decode_opImm : decode 0xFFF00093#32 = .addi 1 0 (-1 : BitVec 12) ∧
    decode 0xFFF0A293#32 = .slti 5 1 (-1 : BitVec 12) ∧ decode 0x8000B293#32 = .sltiu 5 1 (-2048 : BitVec 12) ∧
    decode 0x7FF0C293#32 = .xori 5 1 0x7FF#12 ∧ decode 0x0F00E293#32 = .ori 5 1 0xF0#12 ∧
    decode 0xFF00F293#32 = .andi 5 1 (-16 : BitVec 12) := by decide
theorem test_decode_shiftImm : decode 0x00309293#32 = .slli 5 1 3#12 ∧ decode 0x7FF09293#32 = .slli 5 1 0x7FF#12 ∧
    decode 0x0030D293#32 = .srli 5 1 3#5 ∧ decode 0x4030D293#32 = .srai 5 1 3#5 ∧
    decode 0xFE30D293#32 = .srxi 5 1 3#5 0x7F#7 := by decide
theorem test_decode_op : decode 0x00730533#32 = .add 10 6 7 ∧ decode 0x40730533#32 = .sub 10 6 7 ∧
    decode 0x402092B3#32 = .sll 5 1 2 0x20#7 ∧ decode 0x00732533#32 = .slt 10 6 7 0#7 ∧
    decode 0x00733533#32 = .sltu 10 6 7 0#7 ∧ decode 0x00735533#32 = .srl 10 6 7 ∧
    decode 0x40735533#32 = .sra 10 6 7 0x20#7 ∧ decode 0x0220D2B3#32 = .sra 5 1 2 0x01#7 ∧
    decode 0x00736533#32 = .or 10 6 7 0#7 ∧ decode 0x00737533#32 = .and 10 6 7 0#7 := by decide
theorem test_decode_fatal : decode 0x022082B3#32 = .fatalOpFunct7 0x022082B3#32 ∧
    decode 0x00734533#32 = .fatalOpXor 0x00734533#32 ∧ decode 0x0000000F#32 = .fatalMiscMem 0x0000000F#32 ∧
    decode 0x00100073#32 = .fatalSystem 0x00100073#32 ∧
    decode 0x00000080#32 = .fatalInvalidOpcode 0x00000080#32 ∧
    decode 0xFFFFFFFF#32 = .fatalInvalidOpcode 0xFFFFFFFF#32 ∧
    decode 0x0020C023#32 = .fatalStoreFunct3 0x0020C023#32 := by decide
theorem test_decodeTableWord : decodeTableWord 32 0x123452B7 = some (.lui 5 0x12345#20) ∧
    decodeTableWord 16 0x0013 = some (.addi 0 0 0#12) := by decide

/-! ### One step: the L2 vectors of 95_test_vectors.md -/

theorem test_U1_lui : after (vector 0xFFFFF0B7#32 [] []) 1 = some (0xFFFFF000#32, 0x44#32, .running) := by
  decide
theorem test_U2_lui_x0 : after (vector 0x00001037#32 [] []) 0 = some (0#32, 0x44#32, .running) := by
  decide
theorem test_U4_auipc : after (vector 0x80000097#32 [] []) 1 = some (0x80000040#32, 0x44#32, .running) := by
  decide
theorem test_U5_auipc : after (vector 0x00000097#32 [] []) 1 = some (0x40#32, 0x44#32, .running) := by
  decide
theorem test_J2_jal : after (vector 0x800000EF#32 [] []) 1 = some (0x44#32, 0xFFF00040#32, .running) := by
  decide
theorem test_J3_jal : after (vector 0x7FFFF0EF#32 [] []) 1 = some (0x44#32, 0x0010003E#32, .running) := by
  decide
theorem test_J5_jalr : after (vector 0x003280E7#32 [(5, 0x1000#32)] []) 1 = some (0x44#32, 0x42#32, .running) := by
  decide
theorem test_J6_jalr : after (vector 0xFFF080E7#32 [(1, 0x40#32)] []) 1 = some (0x44#32, 0x3E#32, .running) := by
  decide
theorem test_J8_jalr_funct3 : after (vector 0x000090E7#32 [(1, 0x40#32)] []) 1 = some (0x40#32, 0x40#32, .fatal .invalidFunct3) := by
  decide
theorem test_B1_beq : after (vector 0x80208063#32 [(1, 5#32), (2, 5#32)] []) 1 = some (5#32, 0xFFFFF040#32, .running) := by
  decide
theorem test_B2_beq : after (vector 0x80208063#32 [(1, 5#32), (2, 6#32)] []) 1 = some (5#32, 0x44#32, .running) := by
  decide
theorem test_B3_bne : after (vector 0x00109463#32 [(1, 5#32)] []) 1 = some (5#32, 0x44#32, .running) := by
  decide
theorem test_R109_bne : after (vector 0xFE029CE3#32 [(5, 2#32)] []) 5 = some (2#32, 0x38#32, .running) := by
  decide
theorem test_B4_blt : after (vector 0x7E20CFE3#32 [(1, 0x80000000#32)] []) 2 = some (0#32, 0x103E#32, .running) := by
  decide
theorem test_B10_blt : after (vector 0x0020C463#32 [(1, 0xFFFFFFFF#32), (2, 1#32)] []) 2 = some (1#32, 0x48#32, .running) := by
  decide
theorem test_B5_bge : after (vector 0xFE20DFE3#32 [] []) 1 = some (0#32, 0x3E#32, .running) := by
  decide
theorem test_B6_bge : after (vector 0xFE20DFE3#32 [(1, 0xFFFFFFFF#32)] []) 2 = some (0#32, 0x44#32, .running) := by
  decide
theorem test_B7_bltu : after (vector 0x00106663#32 [(1, 1#32)] []) 1 = some (1#32, 0x4C#32, .running) := by
  decide
theorem test_B11_bltu : after (vector 0x0020E463#32 [(1, 0xFFFFFFFF#32), (2, 1#32)] []) 2 = some (1#32, 0x44#32, .running) := by
  decide
theorem test_B9_bgeu : after (vector 0x0000F063#32 [] []) 1 = some (0#32, 0x40#32, .running) := by
  decide
theorem test_B12_bgeu : after (vector 0x0020F463#32 [(1, 0xFFFFFFFF#32), (2, 1#32)] []) 2 = some (1#32, 0x48#32, .running) := by
  decide
theorem test_B13_branch_funct3 : after (vector 0x0020A463#32 [(1, 1#32), (2, 1#32)] []) 1 = some (1#32, 0x40#32, .fatal .invalidFunct3) := by
  decide
theorem test_LS1_lw : after (vector 0x0000A283#32 [(1, 100#32)] [(36, 0xCAFEBABE#32)]) 5 = some (0xCAFEBABE#32, 0x44#32, .running) := by
  decide
theorem test_LS2_lw : after (vector 0xFFC0A283#32 [(1, 8#32)] [(4, 0x11111111#32)]) 5 = some (0x11111111#32, 0x44#32, .running) := by
  decide
theorem test_LS8_lb : after (vector 0x00108283#32 [] [(1, 0x80#32)]) 5 = some (0xFFFFFF80#32, 0x44#32, .running) := by
  decide
theorem test_LS13_lw_x0_negative : after (vector 0xFFC02003#32 [] []) 0 = some (0#32, 0x40#32, .fatal .dataAddressNegative) := by
  decide
theorem test_L17_lbu : after (vector 0x02804303#32 [] [(40, 0x000080F0#32)]) 6 = some (0xF0#32, 0x44#32, .running) := by
  decide
theorem test_LS9_lhu : after (vector 0x7FF05283#32 [] [(63, 0xFFFF8001#32)]) 5 = some (0x8001#32, 0x44#32, .running) := by
  decide
theorem test_LS10_lh : after (vector 0x02801283#32 [] [(40, 0x000080F0#32)]) 5 = some (0xFFFF80F0#32, 0x44#32, .running) := by
  decide
theorem test_LS14_load_funct3 : after (vector 0x00003283#32 [(5, 7#32)] []) 5 = some (7#32, 0x40#32, .fatal .invalidFunct3) := by
  decide
theorem test_LS16_sw : afterMem (vector 0xFE20AE23#32 [(1, 8#32), (2, 0xDEADBEEF#32)] []) 4 = some (0xDEADBEEF#32, 0x44#32, .running) := by
  decide
theorem test_LS23_sw_own_word : afterMem (vector 0x00002823#32 [] []) 16 = some (0#32, 0x44#32, .running) := by
  decide
theorem test_LS18_sh : afterMem (vector 0x002090A3#32 [(2, 0x12345678#32)] [(1, 0xFFFFFFFF#32)]) 1 = some (0xFFFF5678#32, 0x44#32, .running) := by
  decide
theorem test_L18_sb : afterMem (vector 0x02200423#32 [(2, 0x12345678#32)] [(40, 0xAABBCCDD#32)]) 40 = some (0xAABBCC78#32, 0x44#32, .running) := by
  decide
theorem test_LS17_sw_negative : afterMem (vector 0x0020A023#32 [(1, 0x80000000#32), (2, 1#32)] []) 0 = some (0#32, 0x40#32, .fatal .dataAddressNegative) := by
  decide
theorem test_LS21_store_funct3 : afterMem (vector 0x0020B023#32 [(2, 1#32)] []) 0 = some (0#32, 0x40#32, .fatal .invalidFunct3) := by
  decide
theorem test_OI1_addi : after (vector 0x00108293#32 [(1, 0x7FFFFFFF#32)] []) 5 = some (0x80000000#32, 0x44#32, .running) := by
  decide
theorem test_OI4_addi_rd_rs1 : after (vector 0x00108093#32 [(1, 41#32)] []) 1 = some (42#32, 0x44#32, .running) := by
  decide
theorem test_OI5_slti : after (vector 0x0000A293#32 [(1, 0x80000000#32)] []) 5 = some (1#32, 0x44#32, .running) := by
  decide
theorem test_R130_slti : after (vector 0xFFF0A293#32 [(1, 5#32)] []) 5 = some (0#32, 0x44#32, .running) := by
  decide
theorem test_OI9_sltiu : after (vector 0x8000B293#32 [(1, 0xFFFFF7FF#32)] []) 5 = some (1#32, 0x44#32, .running) := by
  decide
theorem test_OI10_sltiu : after (vector 0x8000B293#32 [(1, 0xFFFFF800#32)] []) 5 = some (0#32, 0x44#32, .running) := by
  decide
theorem test_OI11_xori : after (vector 0x7FF0C293#32 [(1, 0xFFFFFFFF#32)] []) 5 = some (0xFFFFF800#32, 0x44#32, .running) := by
  decide
theorem test_OI12_ori : after (vector 0xFFF0E293#32 [(1, 0x12340000#32)] []) 5 = some (0xFFFFFFFF#32, 0x44#32, .running) := by
  decide
theorem test_OI13_andi : after (vector 0xFF00F293#32 [(1, 0x1234567F#32)] []) 5 = some (0x12345670#32, 0x44#32, .running) := by
  decide
theorem test_OI14_slli : after (vector 0x00309293#32 [(1, 1#32), (5, 7#32)] []) 5 = some (7#32, 0x44#32, .running) := by
  decide
theorem test_R137_srli : after (vector 0x0030D293#32 [(1, 0x80#32), (5, 7#32)] []) 5 = some (7#32, 0x44#32, .running) := by
  decide
theorem test_OI16_srai : after (vector 0x4030D293#32 [(1, 0x80#32), (5, 0x5555#32)] []) 5 = some (0x5555#32, 0x44#32, .running) := by
  decide
theorem test_OI17_srxi : after (vector 0xFE30D293#32 [(1, 0x80#32), (5, 0x5555#32)] []) 5 = some (0x5555#32, 0x44#32, .running) := by
  decide
theorem test_OP1_add : after (vector 0x002082B3#32 [(1, 0xFFFFFFFF#32), (2, 1#32)] []) 5 = some (0#32, 0x44#32, .running) := by
  decide
theorem test_OP18_add_x0 : after (vector 0x00208033#32 [(1, 1#32), (2, 2#32)] []) 0 = some (0#32, 0x44#32, .running) := by
  decide
theorem test_OP3_sub : after (vector 0x402082B3#32 [(1, 0x80000000#32), (2, 1#32)] []) 5 = some (0x7FFFFFFF#32, 0x44#32, .running) := by
  decide
theorem test_OP4_op_funct7 : after (vector 0x022082B3#32 [(1, 1#32), (2, 2#32), (5, 9#32)] []) 5 = some (9#32, 0x40#32, .fatal .invalidFunct7) := by
  decide
theorem test_OP5_sll : after (vector 0x002092B3#32 [(1, 3#32), (2, 32#32)] []) 5 = some (3#32, 0x44#32, .running) := by
  decide
theorem test_OP7_sll_funct7 : after (vector 0x402092B3#32 [(1, 1#32), (2, 4#32)] []) 5 = some (0x10#32, 0x44#32, .running) := by
  decide
theorem test_OP8_slt : after (vector 0x0020A2B3#32 [(1, 0x7FFFFFFF#32), (2, 0x80000000#32)] []) 5 = some (0#32, 0x44#32, .running) := by
  decide
theorem test_OP9_sltu : after (vector 0x0020B2B3#32 [(1, 0x7FFFFFFF#32), (2, 0x80000000#32)] []) 5 = some (1#32, 0x44#32, .running) := by
  decide
theorem test_OP10_xor : after (vector 0x0020C2B3#32 [(1, 3#32), (2, 5#32), (5, 9#32)] []) 5 = some (9#32, 0x40#32, .fatal .invalidFunct3) := by
  decide
theorem test_OP11_srl : after (vector 0x0020D2B3#32 [(1, 0xF0000000#32), (2, 36#32)] []) 5 = some (0x0F000000#32, 0x40#32, .running) := by
  decide
theorem test_OP12_sra : after (vector 0x4020D2B3#32 [(1, 0xF0000000#32), (2, 36#32)] []) 5 = some (0xFF000000#32, 0x40#32, .running) := by
  decide
theorem test_OP13_sra_funct7 : after (vector 0x0220D2B3#32 [(1, 0x80000000#32), (2, 31#32)] []) 5 = some (0xFFFFFFFF#32, 0x40#32, .running) := by
  decide
theorem test_OP15_or : after (vector 0x0020E2B3#32 [(1, 0xF0F0F0F0#32), (2, 0x0F0F0F0F#32)] []) 5 = some (0xFFFFFFFF#32, 0x44#32, .running) := by
  decide
theorem test_R152_and : after (vector 0x0020F2B3#32 [(1, 0xFF#32), (2, 0x0F#32)] []) 5 = some (0x0F#32, 0x44#32, .running) := by
  decide
theorem test_S2_nop : after (vector 0x00000013#32 [] []) 0 = some (0#32, 0x44#32, .running) := by
  decide
theorem test_S3_fence : after (vector 0x0000000F#32 [] []) 0 = some (0#32, 0x40#32, .fatal .invalidOpcode) := by
  decide
theorem test_S4_ecall : after (vector 0x00000073#32 [] []) 0 = some (0#32, 0x40#32, .fatal .invalidOpcode) := by
  decide
theorem test_S6_not_halt : after (vector 0x00000080#32 [] []) 1 = some (0#32, 0x40#32, .fatal .invalidOpcode) := by
  decide

/-- The block of LS-6 and LS-7 under a policy and a capacity. -/
def negative (p : NegEaPolicy) (n : Nat) : State :=
  { vector 0xFFC0A283#32 [] [(0, 0xAAAAAAAA#32), (12, 0xBBBBBBBB#32)] with
    params := { memWords := n, negEaPolicy := p, srxAdvancesPc := true } }

theorem test_LS6 : after (negative .unsignedMod32 28) 5 = some (0xAAAAAAAA#32, 0x44#32, .running) := by decide
theorem test_LS7 : after (negative .signExtMod64 28) 5 = some (0xBBBBBBBB#32, 0x44#32, .running) := by decide
theorem test_OP14_srl_advances :
    after { vector 0x0020D2B3#32 [(1, 0xF0000000#32), (2, 4#32)] [] with
      params := { defaultParams with srxAdvancesPc := true } } 5
      = some (0x0F000000#32, 0x44#32, .running) := by decide
theorem test_S1_halt : afterCount (vector 0#32 [] []) = some (1, 0x40#32, .halted) := by decide
theorem test_S8_fetch : afterCount (block 0x100#32 [] []) = some (0, 0x100#32, .fatal .fetchOutOfBounds) := by
  decide
theorem test_S9_unaligned_pc : afterCount (block 0x43#32 [] [(16, 0x00000013#32)])
    = some (1, 0x47#32, .running) := by decide
theorem test_fatal_is_terminal :
    next? (step { vector 0x13#32 [] [] with status := .fatal .invalidOpcode }) = none := by decide

/-! ### Host operations (H-1 to H-4) and the word placed for the host's probe -/

theorem test_H1_reset : State.reset.pc = 0#32 ∧ State.reset.readReg 2 = 0xFC#32 ∧
    State.reset.readReg 1 = 0#32 ∧ State.reset.mem = [] ∧ State.reset.status = .running := by decide
theorem test_H2_load : (next? (State.reset.load 60 [1#32, 2#32, 3#32, 4#32])).map (·.mem)
    = some [(60, 1#32), (61, 2#32), (62, 3#32), (63, 4#32)] := by decide
theorem test_H3_load : (next? (State.reset.load 61 [1#32, 2#32, 3#32, 4#32])).map (fun t => (t.mem, t.status))
    = some ([], .fatal .loadOutOfBounds) := by decide
theorem test_H4_load : ((next? ({ block 12#32 [] [] with status := .halted }.load 3 [0x00100313#32])).bind
    (fun t => after t 6)) = some (1#32, 16#32, .running) := by decide
theorem test_withFetchWord : after (State.reset.withFetchWord 32 0x123452B7) 5
    = some (0x12345000#32, 4#32, .running) := by decide

/-! ### The assembler (L1-2 to L1-5, ASM-1 to ASM-7) -/

/-- Two radix rules, for the tests only: the spec leaves the radix open (D33). -/
def decimal : AsmRadix := { base := 10, leads := [] }
def decimalOrHex : AsmRadix := { base := 10, leads := [("0x".toList, 16)] }

/-- One choice of what the spec leaves open about the assembler. -/
def params : AsmParams :=
  { radix := decimal, markerInsideToken := false, prev := none, prev2 := none,
    x0IsDestination := false }

/-- The words of the lines, none on an error. -/
def words (lines : List String) : Option (List Word) :=
  match assemble params (lines.map String.toList) with
  | .ok ws => some ws
  | .error _ => none

/-- The error of one line. -/
def errorOf (line : String) : Option AsmError :=
  match assemble params [line.toList] with
  | .ok _ => none
  | .error e => some e

theorem test_asm_L12 : words ["sub x10, x6, x7"] = some [0x40730533#32] ∧
    words ["ADDI X5, X0, 2048 # out of range"] = some [0x80000293#32] ∧
    words ["sw x2, -4(x1)"] = some [0xFE20AE23#32] ∧ words ["lw x3, 40(x0)"] = some [0x02802183#32] := by
  decide
theorem test_asm_L14 : words ["addi x5 x0 1", "addi x6 x0 2", "add x7 x5 x0"]
    = some [0x00100293#32, 0x00200313#32, 0#32, 0x000283B3#32] := by decide
theorem test_asm_L15 : words ["start:", "addi x5 x0 1", "add x6 x5 x5"]
    = some [0x00100293#32, 0#32, 0#32, 0x00528333#32] := by decide
theorem test_asm_branches : (AsmInstr.b 0#3 1 2 8).encode = 0x00208463#32 ∧
    (AsmInstr.b 0#3 1 2 (-8)).encode = 0xFE208C63#32 ∧ (AsmInstr.b 0#3 1 2 9).encode = 0x002084E3#32 ∧
    (AsmInstr.b 0#3 1 2 (-7)).encode = 0xFE208CE3#32 ∧ (AsmInstr.b 0#3 1 2 2047).encode = 0x7E208FE3#32 ∧
    (AsmInstr.b 0#3 1 2 (-2048)).encode = 0x80208063#32 ∧
    (AsmInstr.b 1#3 5 0 (-8)).encode = 0xFE029C63#32 := by decide
theorem test_asm_branch_offsets : (sext13 (immB 0xFE208C63#32)).toInt = -2056 ∧
    (sext13 (immB 0x002084E3#32)).toInt = 2056 ∧ (sext13 (immB 0xFE208CE3#32)).toInt = -8 ∧
    (sext13 (immB 0x7E208FE3#32)).toInt = 4094 := by decide
theorem test_asm_errors : errorOf "nop" = some .unsupportedArity ∧ errorOf "jal x1 x0 8" = some .unknownMnemonic ∧
    errorOf "add x32 x0 x0" = some .malformedRegister ∧ errorOf "addi sp x0 1" = some .malformedRegister ∧
    errorOf "addi x5 x0 start" = some .unparseableImmediate ∧ errorOf "/* c */" = some .multiLineComment := by
  decide
theorem test_asm_no_tokens : errorOf "# a comment" = some .unsupportedArity ∧
    errorOf "" = some .unsupportedArity ∧ errorOf "addi x5 x0 1 2" = some .unsupportedArity := by decide
theorem test_asm_integer : asmInteger decimal "-2048".toList = some (-2048) ∧
    asmInteger decimalOrHex "-0x1f".toList = some (-31) ∧ asmInteger decimalOrHex "0".toList = some 0 ∧
    asmInteger decimalOrHex "010".toList = some 10 := by decide
/-- No number: a label (I6), nothing, a sign alone, a digit the radix lacks, and a leading text alone. -/
theorem test_asm_integer_fails : asmInteger decimal "loop".toList = none ∧ asmInteger decimal [] = none ∧
    asmInteger decimal "-".toList = none ∧ asmInteger decimal "0x1f".toList = none ∧
    asmInteger decimalOrHex "0x".toList = none ∧ asmInteger decimal "--1".toList = none := by decide
theorem test_asm_duplicate_label : words ["a:", "a:"] = none ∧ words ["a:", "b:"] = some [] := by decide

/-! ### Witnesses: for each statement with hypotheses, what meets them -/

/-- A Running block is not Fatal. -/
theorem notFatal_vector (w : Word) (regs : List (RegIdx × Word)) (mem : List (Nat × Word)) :
    NotFatal (vector w regs mem) := fun _ h => by cases h

/-- A Running or Halted block is not Fatal. -/
theorem notFatal_halted (s : State) : NotFatal { s with status := .halted } := fun _ h => by cases h

/-- Instructions whose WellFormed check is not trivial. -/
theorem witness_DecodeOfEncode : (Instr.jal 1 (-4 : BitVec 21)).wellFormed = true ∧
    (Instr.bgeu 1 2 4094#13).wellFormed = true ∧ (Instr.srxi 1 2 3#5 0x7F#7).wellFormed = true ∧
    (Instr.sra 1 2 3 0x20#7).wellFormed = true ∧ (Instr.fatalOpFunct7 0x022082B3#32).wellFormed = true ∧
    (Instr.fatalInvalidOpcode 0x80#32).wellFormed = true := by decide

/-- A word of each line of R76. -/
theorem witness_IllegalWordsAreTheListed : illegalReason 0xFFFFFFFF#32 = some .invalidOpcode ∧
    illegalReason 0x000090E7#32 = some .invalidFunct3 ∧ illegalReason 0x0020B463#32 = some .invalidFunct3 ∧
    illegalReason 0x00006283#32 = some .invalidFunct3 ∧ illegalReason 0x0020C023#32 = some .invalidFunct3 ∧
    illegalReason 0x00734533#32 = some .invalidFunct3 ∧ illegalReason 0x022082B3#32 = some .invalidFunct7 ∧
    illegalReason 0#32 = none ∧ illegalReason 0x13#32 = none := by decide

/-- Low bits 00, 01 and 10. -/
theorem witness_LowBitsAreOpcodeBits : (0x80#32 ≠ 0#32 ∧ (0x80#32).extractLsb' 0 2 ≠ 3#2) ∧
    (0x01#32).extractLsb' 0 2 ≠ 3#2 ∧ (0xFFFFFFFE#32).extractLsb' 0 2 ≠ 3#2 := by decide

/-- A word that only advances pc, and SLTIU of 0 with 1 (R131). -/
theorem witness_OpImmWordsAreNeverFatal : (opcode 0xFE30D293#32 = 0x13#7 ∧
      opImmValue (funct3 0xFE30D293#32) 0x80#32 (extended (immI 0xFE30D293#32)) = none) ∧
    opcode 0x0010B293#32 = 0x13#7 ∧
    opImmValue (funct3 0x0010B293#32) 0#32 (extended (immI 0x0010B293#32)) = some 1#32 := by decide

theorem witness_LuiWritesUpperImmediate : opcode 0x123452B7#32 = 0x37#7 := by decide
theorem witness_AuipcAddsPc : opcode 0x80000097#32 = 0x17#7 := by decide
theorem witness_JalLinksAndJumps : opcode 0x7FFFF0EF#32 = 0x6F#7 := by decide
theorem witness_JalrIsPcRelative : (opcode 0x00808167#32 = 0x67#7 ∧ funct3 0x00808167#32 = 0#3) ∧
    opcode 0x000090E7#32 = 0x67#7 ∧ funct3 0x000090E7#32 ≠ 0#3 := by decide

theorem witness_BranchesCompareAndJump : (opcode 0x00208463#32 = 0x63#7 ∧ funct3 0x00208463#32 = 0b000#3) ∧
    funct3 0xFE029CE3#32 = 0b001#3 ∧ funct3 0x0020C463#32 = 0b100#3 ∧ funct3 0x0020D463#32 = 0b101#3 ∧
    funct3 0x0020E463#32 = 0b110#3 ∧ funct3 0x0020F463#32 = 0b111#3 := by decide

/-- The encodings of LoadsReadIndexedWord and StoresMergeIntoIndexedWord. -/
theorem witness_LoadStore_encodings : (opcode 0x02800203#32 = 0x03#7 ∧ funct3 0x02800203#32 = 0b000#3) ∧
    funct3 0x02801283#32 = 0b001#3 ∧ funct3 0x02802183#32 = 0b010#3 ∧ funct3 0x02804303#32 = 0b100#3 ∧
    funct3 0x02805383#32 = 0b101#3 ∧ (opcode 0x02200423#32 = 0x23#7 ∧ funct3 0x02200423#32 = 0b000#3) ∧
    funct3 0x02201423#32 = 0b001#3 ∧ funct3 0x02102423#32 = 0b010#3 := by decide

/-- The encodings of AluImmediateResults and ShiftImmediatesOnlyAdvance. -/
theorem witness_AluImmediateResults : (opcode 0x0030D293#32 = 0x13#7 ∧ funct3 0x0030D293#32 = 0b101#3 ∧
      funct7 0x0030D293#32 = 0x00#7) ∧ funct7 0x4030D293#32 = 0x20#7 ∧
    (funct3 0xFE30D293#32 = 0b101#3 ∧ funct7 0xFE30D293#32 ≠ 0x00#7 ∧ funct7 0xFE30D293#32 ≠ 0x20#7) ∧
    funct3 0x00108293#32 = 0b000#3 ∧ funct3 0x0000A293#32 = 0b010#3 ∧ funct3 0x0010B293#32 = 0b011#3 ∧
    funct3 0x7FF0C293#32 = 0b100#3 ∧ funct3 0xFFF0E293#32 = 0b110#3 ∧ funct3 0xFF00F293#32 = 0b111#3 ∧
    funct3 0x00309293#32 = 0b001#3 := by decide

/-- The encodings of AluRegisterResults and ShiftRightWritesWithoutAdvance. -/
theorem witness_AluRegisterResults : (opcode 0x00730533#32 = 0x33#7 ∧ funct3 0x00730533#32 = 0b000#3 ∧
      funct7 0x00730533#32 = 0x00#7) ∧ funct7 0x40730533#32 = 0x20#7 ∧ funct3 0x402092B3#32 = 0b001#3 ∧
    funct3 0x0020A2B3#32 = 0b010#3 ∧ funct3 0x0020B2B3#32 = 0b011#3 ∧
    (funct3 0x0020D2B3#32 = 0b101#3 ∧ funct7 0x0020D2B3#32 = 0x00#7) ∧
    (funct3 0x0220D2B3#32 = 0b101#3 ∧ funct7 0x0220D2B3#32 ≠ 0x00#7) ∧ funct3 0x0020E2B3#32 = 0b110#3 ∧
    funct3 0x0020F2B3#32 = 0b111#3 := by decide

/-- Both bounds of EA[31] and each policy; with 28 words the two wraps differ, with 64 they agree. -/
theorem witness_DataIndexFollowsPolicy :
    let p := fun n q => ({ memWords := n, negEaPolicy := q, srxAdvancesPc := false } : Params)
    (0x7FFFFFFF#32).getLsbD 31 = false ∧ (0x80000000#32).getLsbD 31 = true ∧
    dataIndex (p 64 .fatal) 0x7FFFFFFF#32 = some 63 ∧ dataIndex (p 64 .fatal) 0x80000000#32 = none ∧
    dataIndex (p 28 .unsignedMod32) 0xFFFFFFFC#32 = some 0 ∧
    dataIndex (p 28 .signExtMod64) 0xFFFFFFFC#32 = some 12 ∧
    2 ^ 32 % 64 = 2 ^ 64 % 64 ∧ dataIndex (p 64 .signExtMod64) 0xFFFFFFFC#32 = some 60 ∧
    dataIndex (p 1 .fatal) 0x7FFFFFFF#32 = some 0 := by decide

/-- LS-1: EA = 100, index 36; and LS-7, an index at a negative address. -/
theorem witness_LoadsReadIndexedWord : indexOf (vector 0x0000A283#32 [(1, 100#32)] []) 1 0#12 = some 36 ∧
    indexOf (negative .signExtMod64 28) 1 (-4 : BitVec 12) = some 12 := by decide

/-- LS-16: EA = 8 − 4, index 4. -/
theorem witness_StoresMergeIntoIndexedWord :
    indexOf (vector 0xFE20AE23#32 [(1, 8#32)] []) 1 (-4 : BitVec 12) = some 4 := by decide

/-- LS-13 and LS-17. -/
theorem witness_NegativeAddressIsFatal :
    ((vector 0xFFC02003#32 [] []).readReg 0 + extended (-4 : BitVec 12)).getLsbD 31 = true ∧
    ((vector 0x0020A023#32 [(1, 0x80000000#32)] []).readReg 1 + extended 0#12).getLsbD 31 = true ∧
    (vector 0xFFC02003#32 [] []).params.negEaPolicy = .fatal := by decide

/-- L1-8: sb x2, 40(x0), and the two other stores; then the same index, by two offsets, and another. -/
theorem witness_LoadSeesLatestStore :
    let s := vector 0#32 [(2, 0x12345678#32)] [(40, 0xAABBCCDD#32)]
    indexOf s 0 40#12 = some 40 ∧ (Instr.sb 0 2 40#12, 0xAABBCC78#32) ∈ storesOver s 0 2 40#12 (s.mem.read 40) ∧
    (Instr.sh 0 2 40#12, 0xAABB5678#32) ∈ storesOver s 0 2 40#12 (s.mem.read 40) ∧
    ∃ t u, exec (.sb 0 2 40#12) s = .next t ∧ exec (.sh 0 2 40#12) s = .next u ∧
      indexOf t 0 104#12 = some 40 ∧ indexOf u 0 40#12 = some 40 ∧ indexOf t 0 41#12 = some 41 :=
  ⟨by decide, by decide, by decide, _, _, rfl, rfl, by decide, by decide, by decide⟩

/-- P6: sw x0, 3(x0) overwrites the word fetched at pc 12 to 15, and sb and sh their low bits of it. -/
theorem witness_StoreChangesFetchedWord :
    let s := vector 0#32 [] [(3, 0x00100313#32)]
    indexOf s 0 3#12 = some 3 ∧
    (∃ t, exec (.sw 0 0 3#12) s = .next t) ∧ (∃ t, exec (.sb 0 0 3#12) s = .next t) ∧
    (Instr.sw 0 0 3#12, 0#32) ∈ storesOver s 0 0 3#12 (s.mem.read 3) ∧
    (Instr.sb 0 0 3#12, 0x00100300#32) ∈ storesOver s 0 0 3#12 (s.mem.read 3) ∧
    (Instr.sh 0 0 3#12, 0x00100000#32) ∈ storesOver s 0 0 3#12 (s.mem.read 3) ∧
    (12#32).toNat / 4 = 3 ∧ (15#32).toNat / 4 = 3 ∧ (16#32).toNat / 4 ≠ 3 ∧ 3 < s.params.memWords :=
  ⟨by decide, ⟨_, rfl⟩, ⟨_, rfl⟩, by decide, by decide, by decide, by decide, by decide, by decide, by decide⟩

/-- OP-17: rd = rs2, and OP-11: rd neither source. -/
theorem witness_ShiftRightNeverLeavesItsWord :
    let s := vector 0x007353B3#32 [(6, 8#32), (7, 1#32)] []
    let u := vector 0x4020D2B3#32 [(1, 0xF0000000#32), (2, 36#32)] []
    (NotFatal s ∧ s.fetch = some 0x007353B3#32 ∧ IsShiftRight (decode 0x007353B3#32) 7 6 7 ∧
      s.params.srxAdvancesPc = false) ∧
    NotFatal u ∧ u.fetch = some 0x4020D2B3#32 ∧ IsShiftRight (decode 0x4020D2B3#32) 5 1 2 :=
  ⟨⟨notFatal_vector _ _ _, by decide, .inl (by decide), rfl⟩, notFatal_vector _ _ _, by decide,
    .inr ⟨0x20#7, by decide⟩⟩

/-- Both values of the parameter. -/
theorem witness_ShiftRightWritesWithoutAdvance : State.reset.params.srxAdvancesPc = false ∧
    (negative .fatal 64).params.srxAdvancesPc = true := by decide

theorem witness_HaltOnlySetsStatus : NotFatal (vector 0#32 [] []) ∧ (vector 0#32 [] []).fetch = some 0#32 :=
  ⟨notFatal_vector _ _ _, by decide⟩

theorem witness_HaltRepeats : NotFatal { vector 0#32 [] [] with status := .halted } ∧
    ({ vector 0#32 [] [] with status := .halted } : State).fetch = some 0#32 :=
  ⟨notFatal_halted _, by decide⟩

theorem witness_MiscMemAndSystemAreInvalid : opcode 0x0000000F#32 = 0x0F#7 ∧ opcode 0x00100073#32 = 0x73#7 := by
  decide

theorem witness_StepRunsDecodedInstruction :
    (NotFatal (vector 0x123452B7#32 [] []) ∧ (vector 0x123452B7#32 [] []).fetch = some 0x123452B7#32) ∧
    (NotFatal (block 0x100#32 [] []) ∧ (block 0x100#32 [] []).fetch = none) ∧
    ({ State.reset with status := .fatal .loadOutOfBounds } : State).status = .fatal .loadOutOfBounds :=
  ⟨⟨notFatal_vector _ _ _, by decide⟩, ⟨fun _ h => (by cases h), by decide⟩, rfl⟩

/-- The last word that is fetched and the first that is not. -/
theorem witness_FetchByWordIndex :
    (block 0xFF#32 [] []).pc.toNat / 4 < (block 0xFF#32 [] []).params.memWords ∧
    (block 0x100#32 [] []).params.memWords ≤ (block 0x100#32 [] []).pc.toNat / 4 ∧
    NotFatal (block 0x100#32 [] []) := ⟨by decide, by decide, fun _ h => by cases h⟩

theorem witness_PlacedWordRunsNext : NotFatal State.reset ∧
    State.reset.pc.toNat / 4 < State.reset.params.memWords ∧ (Instr.beq 1 2 8#13).wellFormed = true :=
  ⟨fun _ h => (by cases h), by decide, by decide⟩

theorem witness_StepExistsUnlessFatal : NotFatal State.reset ∧
    ({ State.reset with status := .fatal .invalidOpcode } : State).status = .fatal .invalidOpcode :=
  ⟨fun _ h => (by cases h), rfl⟩

/-- A step for each test of R162, each with the premises of its own clause. -/
theorem witness_StatusFollowsTestOrder :
    (∃ t, step (block 0x100#32 [] []) = .next t ∧ t.status = .fatal .fetchOutOfBounds) ∧
    (∃ t, step (vector 0#32 [] []) = .next t ∧ t.status = .halted) ∧
    (∃ t, step (vector 0x022082B3#32 [] []) = .next t ∧ t.status = .fatal .invalidFunct7) ∧
    (∃ t, step (vector 0xFFC0A283#32 [] []) = .next t ∧ negativeAddress (vector 0xFFC0A283#32 [] []) 0xFFC0A283#32 ∧
      t.status = .fatal .dataAddressNegative) ∧
    ∃ t, step (vector 0x13#32 [] []) = .next t ∧ t.status = .running :=
  ⟨⟨_, rfl, by decide⟩, ⟨_, rfl, by decide⟩, ⟨_, rfl, by decide⟩,
    ⟨_, rfl, by unfold negativeAddress; decide, by decide⟩, ⟨_, rfl, by decide⟩⟩

theorem witness_FatalStepIsPrecise :
    (∃ t, step (block 0x100#32 [] []) = .next t ∧ t.status = .fatal .fetchOutOfBounds) ∧
    ∃ t, step (vector 0x0020C2B3#32 [(5, 9#32)] []) = .next t ∧ t.status = .fatal .invalidFunct3 :=
  ⟨⟨_, rfl, by decide⟩, ⟨_, rfl, by decide⟩⟩

theorem witness_CyclesCountFetches : ∃ t u, step (vector 0x13#32 [] []) = .next t ∧
    step (block 0x100#32 [] []) = .next u := ⟨_, _, rfl, rfl⟩

theorem witness_CyclesInfluenceNothing : ∃ t, step (vector 0x0020D2B3#32 [] []) = .next t := ⟨_, rfl⟩

theorem witness_LoadResumesHaltedBlock :
    let s : State := { block 12#32 [] [] with status := .halted }
    s.status = .halted ∧ s.pc.toNat / 4 < s.params.memWords := by decide

theorem inv_vector : (vector 0xFE20AE23#32 [(1, 8#32), (2, 0xDEADBEEF#32)] []).Inv := by decide

theorem witness_StepKeepsInv : (vector 0xFE20AE23#32 [(1, 8#32), (2, 0xDEADBEEF#32)] []).Inv ∧
    ∃ t, step (vector 0xFE20AE23#32 [(1, 8#32), (2, 0xDEADBEEF#32)] []) = .next t := ⟨inv_vector, _, rfl⟩

theorem witness_HostOperationsKeepInv : 1 ≤ defaultParams.memWords ∧ State.reset.Inv ∧
    ∃ t, State.reset.load 60 [1#32, 0#32] = .next t := ⟨by decide, by decide, _, rfl⟩

theorem witness_EvenPcStaysEven : (vector 0xFE20DFE3#32 [] []).pc.toNat % 2 = 0 ∧
    ∃ t, step (vector 0xFE20DFE3#32 [] []) = .next t := ⟨by decide, _, rfl⟩

theorem witness_CapacityNeverChanges : (∃ t, step (vector 0x13#32 [] []) = .next t) ∧
    ∃ t, State.reset.load 61 [1#32, 2#32, 3#32, 4#32] = .next t := ⟨⟨_, rfl⟩, ⟨_, rfl⟩⟩

theorem witness_OnlyStoresWriteMemory :
    ((vector 0x0020A023#32 [] []).fetch = some 0x0020A023#32 ∧ opcode 0x0020A023#32 = 0x23#7 ∧
      ∃ t, step (vector 0x0020A023#32 [] []) = .next t) ∧
    (vector 0x00208463#32 [] []).fetch = some 0x00208463#32 ∧ opcode 0x00208463#32 = 0x63#7 ∧
      ∃ t, step (vector 0x00208463#32 [] []) = .next t :=
  ⟨⟨by decide, by decide, _, rfl⟩, by decide, by decide, _, rfl⟩

/-- Each clause of the pc table: a fatal outcome, and the pc of each class. -/
theorem witness_PcFollowsInstructionClass :
    let s := vector 0#32 [(1, 1#32)] []
    fatalOutcome s (.lw 5 0 (-4 : BitVec 12)) = some .dataAddressNegative ∧
    fatalOutcome s (.lw 5 1 (-1 : BitVec 12)) = none ∧ fatalOutcome s (.fatalOpFunct7 0#32) = some .invalidFunct7 ∧
    newPc s (.jalr 1 5 3#12) = 0x42#32 ∧ newPc s (.beq 1 1 8#13) = 0x48#32 ∧ newPc s (.beq 1 2 8#13) = 0x44#32 ∧
    newPc s (.bltu 0 1 12#13) = 0x4C#32 ∧ newPc s (.srl 5 1 2) = 0x40#32 ∧ newPc s .halt = 0x40#32 ∧
    newPc s (.slli 5 1 3#12) = 0x44#32 := by decide

theorem witness_OnlyDestinationIsWritten :
    (∃ t, exec (.jalr 1 5 3#12) (vector 0#32 [] []) = .next t) ∧ destination (.jalr 1 5 3#12) ≠ some 5 ∧
    (∃ t, exec (.sw 1 2 0#12) (vector 0#32 [] []) = .next t) ∧ destination (.sw 1 2 0#12) ≠ some 1 :=
  ⟨⟨_, rfl⟩, by decide, ⟨_, rfl⟩, by decide⟩

theorem witness_PcIndependentOfRegisters :
    let s := vector 0x003280E7#32 [] []
    s.fetch = some 0x003280E7#32 ∧ opcode 0x003280E7#32 ∉ [0x63#7, 0x03#7, 0x23#7] ∧
    (∃ t, step s = .next t) ∧ ∃ u, step { s with regs := Vector.replicate 32 5#32 } = .next u :=
  ⟨by decide, by decide, ⟨_, rfl⟩, ⟨_, rfl⟩⟩

/-- J-1, at its own pc and at an odd one. -/
theorem witness_SelfJumpRunsForever : (NotFatal (vector 0x0000006F#32 [] []) ∧
      (vector 0x0000006F#32 [] []).fetch = some (encode (.jal 0 0#21))) ∧
    NotFatal (block 0x43#32 [] [(16, 0x0000006F#32)]) ∧
    (block 0x43#32 [] [(16, 0x0000006F#32)]).fetch = some (encode (.jal 0 0#21)) :=
  ⟨⟨notFatal_vector _ _ _, by decide⟩, (fun _ h => by cases h), by decide⟩

/-- Nothing has ended before the first operation. -/
theorem notEndedBefore_one {ops : Nat → HostOp} (s : State) : NotEndedBefore ops s 1 :=
  fun _ _ => ⟨fun hh => absurd hh.1 (by omega), fun _ hf => absurd hf.1 (by omega)⟩

/-- A run that ends well at its first step, one that ends badly at its first step, and one that ends badly at a
load past the capacity. -/
theorem witness_RunEndsInExactlyOneWay :
    let late : Nat → HostOp := fun _ => .load 61 [1#32, 2#32, 3#32, 4#32]
    (NotFatal (vector 0#32 [] []) ∧ EndsWellAt stepsOnly (vector 0#32 [] []) 1) ∧
    (NotFatal (vector 0xFFFFFFFF#32 [] []) ∧ EndsBadlyAt stepsOnly (vector 0xFFFFFFFF#32 [] []) 1 .invalidOpcode) ∧
    EndsBadlyAt late (vector 0#32 [] []) 1 .loadOutOfBounds :=
  ⟨⟨notFatal_vector _ _ _, notEndedBefore_one _, by decide, rfl, _, rfl, by decide⟩,
    ⟨notFatal_vector _ _ _, notEndedBefore_one _, by decide, _, rfl, by decide⟩,
    notEndedBefore_one _, by decide, _, rfl, by decide⟩

/-- H-2 and H-3: the last load that fits and the first that does not. -/
theorem witness_ProgramLoadCopiesWords : NotFatal State.reset ∧ 60 + 4 ≤ State.reset.params.memWords ∧
    State.reset.params.memWords < 61 + 4 := ⟨fun _ h => (by cases h), by decide, by decide⟩

/-- A mnemonic of the I format, and the bounds of an S-type immediate. -/
theorem witness_AssemblerPacksEngineLayouts : asmFormat "jalr".toList = .ok (.i 0x67#7 0#3) ∧
    (-2048 : Int) ≤ -4 ∧ (-4 : Int) ≤ 2047 := ⟨rfl, by decide, by decide⟩

/-- The bounds of the assembler's immediate, and ASM-1 to ASM-4, one of each case of R90. -/
theorem witness_AssemblerBranchOffsetMismatch : (-2048 : Int) ≤ 2047 ∧ (8 : Int) % 2 = 0 ∧ (-8 : Int) % 2 = 0 ∧
    (9 : Int) % 2 = 1 ∧ (-7 : Int) % 2 = 1 ∧ (-2048 : Int) % 2 = 0 ∧ (2047 : Int) % 2 = 1 := by decide

/-- The last word of the block, and registers other than x0 and x2. -/
theorem witness_ConstructionSetsEveryField : 63 < defaultParams.memWords ∧ (1 : RegIdx) ≠ 0 ∧ (31 : RegIdx) ≠ 2 ∧
    (State.construct defaultParams { defaultResetParams with initMem := [7#32] }).mem.read 0 = 7#32 := by decide

theorem witness_ObserveReadsWholeState : 63 < State.reset.params.memWords := by decide

/-- L1-5: prev is read; one that reads both prev and prev2; L1-4: prev2 alone is read, by an add and by a
store; and neither is read. -/
theorem witness_HazardPassPadsDependencies :
    let add := AsmInstr.r 0#7 0#3 7 5 6
    let sw := AsmInstr.s 2#3 0 5 40
    (Reads add (some 6) ∧ Reads add (some 5)) ∧
    (¬ Reads add (some 1) ∧ Reads add (some 5) ∧ add.dest false ≠ none) ∧
    (¬ Reads sw (some 6) ∧ Reads sw (some 5) ∧ sw.dest false = none) ∧
    ¬ Reads add none ∧ ¬ Reads add (some 1) := by
  simp [Reads, AsmInstr.srcs, AsmInstr.dest]

end Sys2Proof.Tests
end

section
/-! The register file as it is read, written and observed (10_state.md R20 to R22,
70_reset_and_hazards.md R185). -/

namespace Sys2Proof.Machine

/-- A write to x[0] is discarded (10_state.md R22). -/
@[simp] theorem writeReg_zero (s : State) (v : Word) : s.writeReg 0 v = s := rfl

/-- The host observes of each register what a read of it returns (R185). -/
@[simp] theorem observe_regs_getElem? (s : State) (i : RegIdx) :
    s.observe.regs[i.val]? = some (s.readReg i) := by
  simp [State.observe]

end Sys2Proof.Machine

namespace Sys2Proof.Claims
open Sys2Proof.Machine

/-- Settles O42: x0 is observed as it reads, which is 0, and a write to it is discarded. -/
theorem registerZeroReadsZero : Obligations.RegisterZeroReadsZero := by
  intro s
  have hobs : s.observe.regs[0]? = some (s.readReg 0) := observe_regs_getElem? s 0
  exact ⟨readReg_zero s, hobs.trans (congrArg some (readReg_zero s)), writeReg_zero s⟩

end Sys2Proof.Claims
end

section
/-! The fetch, and the step whose fetch finds no word (20_memory.md R41, 45_step_halt_invalid.md R153,
R162). -/

namespace Sys2Proof.Machine

/-- From any status but Fatal a step fetches and executes (R153, 70_reset_and_hazards.md R184). -/
theorem step_eq_fetchAndExecute {s : State} (hs : ∀ r, s.status ≠ .fatal r) :
    step s = fetchAndExecute s := by
  unfold step
  split
  · next r hr => exact absurd hr (hs r)
  all_goals rfl

/-- Without a word to fetch, the only effect is Fatal(FetchOutOfBounds). -/
theorem fetchAndExecute_of_fetch_eq_none {s : State} (h : s.fetch = none) :
    fetchAndExecute s = .next (s.raiseFatal .fetchOutOfBounds) := by
  simp only [fetchAndExecute, h]

end Sys2Proof.Machine

namespace Sys2Proof.Claims
open Sys2Proof.Machine

/-- Settles O30: the bounds check on u(pc) div 4 decides the fetch, and a step without a word raises Fatal
before it counts. -/
theorem fetchByWordIndex : Obligations.FetchByWordIndex := by
  intro s
  refine ⟨fun hin => fetch_eq_some_iff.2 ⟨hin, rfl⟩, fun hout => ?_⟩
  have hnone : s.fetch = none := fetch_eq_none_iff.2 hout
  exact ⟨hnone, fun hs =>
    (step_eq_fetchAndExecute hs).trans (fetchAndExecute_of_fetch_eq_none hnone)⟩

end Sys2Proof.Claims
end

section
/-! The FATAL rows and the reason each raises (30_encoding.md R72, R76, 60_exceptions.md R160). -/

namespace Sys2Proof.Claims
open Sys2Proof.Machine

/-- The reason a FATAL row of the opcode table raises, none for the other rows. -/
def rowReason : Instr → Option FatalReason
  | .fatalJalrFunct3 _ | .fatalBranchFunct3 _ | .fatalLoadFunct3 _ | .fatalStoreFunct3 _ | .fatalOpXor _ =>
    some .invalidFunct3
  | .fatalOpFunct7 _ => some .invalidFunct7
  | .fatalMiscMem _ | .fatalSystem _ | .fatalInvalidOpcode _ => some .invalidOpcode
  | _ => none

/-- The FATAL rows are the rows with a reason. -/
theorem isFatalRow_eq_isSome_rowReason (i : Instr) : isFatalRow i = (rowReason i).isSome := by
  cases i <;> rfl

/-- A row with a reason raises it, and its execution does nothing else (R159). -/
theorem exec_of_rowReason {i : Instr} {r : FatalReason} (h : rowReason i = some r) (s : State) :
    exec i s = .next (s.raiseFatal r) := by
  unfold rowReason at h
  split at h <;> cases h <;> rfl

/-! What R76 lists under each opcode. -/

theorem illegalReason_of_not_core {w : Word} (hw : w ≠ 0#32) (h : isCoreOpcode (opcode w) = false) :
    illegalReason w = some .invalidOpcode := by
  simp only [isCoreOpcode, Bool.or_eq_false_iff, beq_eq_false_iff_ne] at h
  simp [illegalReason, hw, h]

/-- No word of LUI, AUIPC, JAL and OP-IMM is illegal. -/
theorem illegalReason_upper_jal_opImm {w : Word} (h : opcode w ∈ [0x37#7, 0x17#7, 0x6F#7, 0x13#7]) :
    illegalReason w = none := by
  have hw : w ≠ 0#32 := by rintro rfl; exact absurd h (by decide)
  simp only [List.mem_cons, List.not_mem_nil, or_false] at h
  rcases h with h | h | h | h <;> simp [illegalReason, hw, h]

theorem illegalReason_jalr {w : Word} (h : opcode w = 0x67#7) :
    illegalReason w = if funct3 w ≠ 0#3 then some .invalidFunct3 else none := by
  simp [illegalReason, ne_zero_of_opcode h, h]

theorem illegalReason_branch {w : Word} (h : opcode w = 0x63#7) :
    illegalReason w = if funct3 w ∈ [2#3, 3#3] then some .invalidFunct3 else none := by
  simp [illegalReason, ne_zero_of_opcode h, h]

theorem illegalReason_load {w : Word} (h : opcode w = 0x03#7) :
    illegalReason w = if funct3 w ∈ [3#3, 6#3, 7#3] then some .invalidFunct3 else none := by
  simp [illegalReason, ne_zero_of_opcode h, h]

theorem illegalReason_store {w : Word} (h : opcode w = 0x23#7) :
    illegalReason w = if 3 ≤ (funct3 w).toNat then some .invalidFunct3 else none := by
  simp [illegalReason, ne_zero_of_opcode h, h]

theorem illegalReason_op {w : Word} (h : opcode w = 0x33#7) :
    illegalReason w = if funct3 w = 4#3 then some .invalidFunct3
      else if funct3 w = 0#3 ∧ funct7 w ∉ [0x00#7, 0x20#7] then some .invalidFunct7 else none := by
  simp [illegalReason, ne_zero_of_opcode h, h]

/-! The reason of the row that funct3 and funct7 select. -/

theorem rowReason_decodeBranch (w : Word) :
    rowReason (decodeBranch w) = if funct3 w ∈ [2#3, 3#3] then some .invalidFunct3 else none := by
  unfold decodeBranch
  rcases funct3_cases (funct3 w) with h | h | h | h | h | h | h | h <;> simp [h, rowReason]

theorem rowReason_decodeLoad (w : Word) :
    rowReason (decodeLoad w) = if funct3 w ∈ [3#3, 6#3, 7#3] then some .invalidFunct3 else none := by
  unfold decodeLoad
  rcases funct3_cases (funct3 w) with h | h | h | h | h | h | h | h <;> simp [h, rowReason]

theorem rowReason_decodeStore (w : Word) :
    rowReason (decodeStore w) = if 3 ≤ (funct3 w).toNat then some .invalidFunct3 else none := by
  unfold decodeStore
  rcases funct3_cases (funct3 w) with h | h | h | h | h | h | h | h <;> simp [h, rowReason]

theorem rowReason_decodeOpImm (w : Word) : rowReason (decodeOpImm w) = none := by
  unfold decodeOpImm decodeShiftRightImm
  split_ifs <;> rfl

theorem rowReason_decodeAddSub (w : Word) :
    rowReason (decodeAddSub w) = if funct7 w ∉ [0x00#7, 0x20#7] then some .invalidFunct7 else none := by
  unfold decodeAddSub
  split_ifs <;> simp_all [rowReason]

theorem rowReason_decodeOp (w : Word) :
    rowReason (decodeOp w) = if funct3 w = 4#3 then some .invalidFunct3
      else if funct3 w = 0#3 ∧ funct7 w ∉ [0x00#7, 0x20#7] then some .invalidFunct7 else none := by
  unfold decodeOp
  by_cases h0 : funct3 w = 0#3
  · simpa [h0] using rowReason_decodeAddSub w
  by_cases h4 : funct3 w = 4#3
  · simp [h4, rowReason]
  · simp only [h0, h4, false_and, if_false]
    split_ifs <;> rfl

/-- R76 lists each word with the reason of the row it decodes to. -/
theorem rowReason_decode (w : Word) : rowReason (decode w) = illegalReason w := by
  by_cases hw : w = 0#32
  · subst hw; rfl
  rcases opcode_cases w with h | h | h | h | h | h | h | h | h | h | h | ⟨hcore, hmisc, hsys⟩
  · rw [decode_lui h, illegalReason_upper_jal_opImm (by simp [h])]; rfl
  · rw [decode_auipc h, illegalReason_upper_jal_opImm (by simp [h])]; rfl
  · rw [decode_jal h, illegalReason_upper_jal_opImm (by simp [h])]; rfl
  · rw [decode_jalr h, illegalReason_jalr h]; by_cases h3 : funct3 w = 0#3 <;> simp [h3, rowReason]
  · rw [decode_branch h, illegalReason_branch h, rowReason_decodeBranch]
  · rw [decode_load h, illegalReason_load h, rowReason_decodeLoad]
  · rw [decode_store h, illegalReason_store h, rowReason_decodeStore]
  · rw [decode_opImm h, illegalReason_upper_jal_opImm (by simp [h]), rowReason_decodeOpImm]
  · rw [decode_op h, illegalReason_op h, rowReason_decodeOp]
  · rw [decode_miscMem h, illegalReason_of_not_core hw (by rw [h]; rfl)]; rfl
  · rw [decode_system h, illegalReason_of_not_core hw (by rw [h]; rfl)]; rfl
  · rw [decode_invalid hw hcore hmisc hsys, illegalReason_of_not_core hw hcore]; rfl

/-- Settles O6: R76's list and the decoder give every word one reason, and the FATAL row raises it. -/
theorem illegalWordsAreTheListed : Obligations.IllegalWordsAreTheListed := by
  intro w
  rw [← rowReason_decode]
  refine ⟨?_, fun r hr s => ⟨_, exec_of_rowReason hr s, rfl⟩⟩
  rw [isFatalRow_eq_isSome_rowReason, Option.isSome_iff_ne_none]

end Sys2Proof.Claims
end

section
/-! The halt word (30_encoding.md R79, 45_step_halt_invalid.md R154). -/

namespace Sys2Proof

/-- The zero test comes first (R72, R79). -/
@[simp] theorem decode_zero : decode 0#32 = .halt := rfl

/-- Past the zero test no test of the decoder answers the halt instruction. -/
theorem decode_ne_halt {w : Word} (hw : w ≠ 0#32) : decode w ≠ .halt := by
  rcases opcode_cases w with h | h | h | h | h | h | h | h | h | h | h | ⟨hcore, hmisc, hsys⟩
  · rw [decode_lui h]; nofun
  · rw [decode_auipc h]; nofun
  · rw [decode_jal h]; nofun
  · rw [decode_jalr h]; split_ifs <;> nofun
  · rw [decode_branch h]; unfold decodeBranch; split_ifs <;> nofun
  · rw [decode_load h]; unfold decodeLoad; split_ifs <;> nofun
  · rw [decode_store h]; unfold decodeStore; split_ifs <;> nofun
  · rw [decode_opImm h]; unfold decodeOpImm decodeShiftRightImm; split_ifs <;> nofun
  · rw [decode_op h]; unfold decodeOp decodeAddSub; split_ifs <;> nofun
  · rw [decode_miscMem h]; nofun
  · rw [decode_system h]; nofun
  · rw [decode_invalid hw hcore hmisc hsys]; nofun

theorem decode_eq_halt_iff {w : Word} : decode w = .halt ↔ w = 0#32 :=
  ⟨fun h => by_contra fun hw => decode_ne_halt hw h, fun h => h ▸ decode_zero⟩

end Sys2Proof

namespace Sys2Proof.Machine

/-- With a word to fetch, the step counts the fetch and executes what the word decodes to (R153). -/
theorem fetchAndExecute_of_fetch_eq_some {s : State} {w : Word} (h : s.fetch = some w) :
    fetchAndExecute s = exec (decode w) s.beginExecute := by
  simp only [fetchAndExecute, h]

@[simp] theorem exec_halt (s : State) : exec .halt s = .next s.enterHalt := rfl

end Sys2Proof.Machine

namespace Sys2Proof.Claims
open Sys2Proof.Machine

/-- Settles O26: only the zero test answers the halt instruction, and a step at the zero word counts its fetch
and enters Halted. -/
theorem haltOnlySetsStatus : Obligations.HaltOnlySetsStatus := by
  refine ⟨fun w => decode_eq_halt_iff, fun s => ⟨_, exec_halt s, rfl⟩, fun s hs hzero => ?_⟩
  calc step s = exec (decode 0#32) s.beginExecute :=
        (step_eq_fetchAndExecute hs).trans (fetchAndExecute_of_fetch_eq_some hzero)
    _ = .next s.beginExecute.enterHalt := by rw [decode_zero, exec_halt]

end Sys2Proof.Claims
end

section
/-! The upper immediate as a masked word, and LUI and AUIPC with the frame of an instruction that writes rd and
advances (30_encoding.md R69, 40_upper_immediate.md R100, R101). -/

namespace Sys2Proof.Machine

/-- The U-type immediate over twelve zeros is the word with its low twelve bits cleared (R69). -/
theorem upperImm_immU (w : Word) : upperImm (immU w) = w &&& 0xFFFFF000#32 := by
  have hsplit : w = immU w ++ w.extractLsb' 0 12 :=
    (extract_whole w).symm.trans (extract_join w 0 20 12).symm
  have hmask : 0xFFFFF000#32 = BitVec.allOnes 20 ++ 0#12 := by decide
  calc upperImm (immU w)
      = (immU w &&& BitVec.allOnes 20) ++ (w.extractLsb' 0 12 &&& 0#12) := by
        rw [BitVec.and_allOnes, BitVec.and_zero, upperImm]
    _ = (immU w ++ w.extractLsb' 0 12) &&& (BitVec.allOnes 20 ++ 0#12) := BitVec.and_append.symm
    _ = w &&& 0xFFFFF000#32 := by rw [← hsplit, ← hmask]

theorem exec_lui (rd : RegIdx) (imm : BitVec 20) (s : State) :
    exec (.lui rd imm) s = .next (s.writeAndAdvance rd (upperImm imm)) := rfl

/-- AUIPC adds the pc of the state it starts in, its own (R101). -/
theorem exec_auipc (rd : RegIdx) (imm : BitVec 20) (s : State) :
    exec (.auipc rd imm) s = .next (s.writeAndAdvance rd (upperImm imm + s.pc)) := rfl

end Sys2Proof.Machine

namespace Sys2Proof.Claims
open Sys2Proof.Machine

/-- A state whose reads are those after a write of v to rd, the write to x0 discarded (10_state.md R21, R22). -/
theorem wrote_of_readReg {s t : State} {rd : RegIdx} {v : Word}
    (h : ∀ r, t.readReg r = if rd ≠ 0 ∧ r = rd then v else s.readReg r) : Wrote s t rd v := by
  intro r
  by_cases hr : r = 0
  · subst hr; rfl
  · rw [h r, if_neg hr]
    by_cases hrd : r = rd
    · subst hrd; simp [hr]
    · simp [hrd]

theorem wroteAndNext_writeAndAdvance (s : State) (rd : RegIdx) (v : Word) :
    WroteAndNext s rd v (s.writeAndAdvance rd v) :=
  ⟨wrote_of_readReg fun r => readReg_writeAndAdvance s rd r v, writeAndAdvance_pc s rd v,
    writeAndAdvance_mem s rd v, writeAndAdvance_cycles s rd v, writeAndAdvance_status s rd v,
    writeAndAdvance_params s rd v⟩

/-- An instruction that ends in writeAndAdvance gives the frame of one that writes rd and goes on (R25). -/
theorem gives_wroteAndNext {i : Instr} {s : State} {rd : RegIdx} {v : Word}
    (h : exec i s = .next (s.writeAndAdvance rd v)) : Gives i s (WroteAndNext s rd v) :=
  ⟨_, h, wroteAndNext_writeAndAdvance s rd v⟩

/-- Settles O10: the opcode selects LUI, which writes the masked word and advances. -/
theorem luiWritesUpperImmediate : Obligations.LuiWritesUpperImmediate := by
  intro w s hop
  rw [← upperImm_immU]
  exact ⟨decode_lui hop, gives_wroteAndNext (exec_lui (rdField w) (immU w) s)⟩

/-- Settles O11: the opcode selects AUIPC, which writes the masked word plus its own pc and advances. -/
theorem auipcAddsPc : Obligations.AuipcAddsPc := by
  intro w s hop
  rw [← upperImm_immU]
  exact ⟨decode_auipc hop, gives_wroteAndNext (exec_auipc (rdField w) (immU w) s)⟩

end Sys2Proof.Claims
end

section
/-! The six branches: the comparison as a proposition of the two operands, the offset extended, and a frame that
writes pc only (00_scope.md R11, R12, 41_control_transfer.md R107 to R113). -/

namespace Sys2Proof.Machine

theorem isEqual_iff (a b : Word) : isEqual a b = true ↔ a = b := beq_iff_eq

theorem isLessSigned_iff (a b : Word) : isLessSigned a b = true ↔ a.toInt < b.toInt := decide_eq_true_iff

theorem isLessUnsigned_iff (a b : Word) : isLessUnsigned a b = true ↔ a.toNat < b.toNat := decide_eq_true_iff

section
variable (rs1 rs2 : RegIdx) (off : BitVec 13) (s : State)

theorem exec_beq : exec (.beq rs1 rs2 off) s =
    .next (s.branch (isEqual (s.readReg rs1) (s.readReg rs2)) (sext13 off)) := rfl

theorem exec_bne : exec (.bne rs1 rs2 off) s =
    .next (s.branch (!isEqual (s.readReg rs1) (s.readReg rs2)) (sext13 off)) := rfl

theorem exec_blt : exec (.blt rs1 rs2 off) s =
    .next (s.branch (isLessSigned (s.readReg rs1) (s.readReg rs2)) (sext13 off)) := rfl

theorem exec_bge : exec (.bge rs1 rs2 off) s =
    .next (s.branch (!isLessSigned (s.readReg rs1) (s.readReg rs2)) (sext13 off)) := rfl

theorem exec_bltu : exec (.bltu rs1 rs2 off) s =
    .next (s.branch (isLessUnsigned (s.readReg rs1) (s.readReg rs2)) (sext13 off)) := rfl

theorem exec_bgeu : exec (.bgeu rs1 rs2 off) s =
    .next (s.branch (!isLessUnsigned (s.readReg rs1) (s.readReg rs2)) (sext13 off)) := rfl

end

end Sys2Proof.Machine

namespace Sys2Proof.Claims
open Sys2Proof.Machine

/-- Sign extension of an encoded immediate is its integer value as a word (R12). -/
theorem signExtend_eq_extended {n : Nat} (imm : BitVec n) : imm.signExtend 32 = extended imm := rfl

theorem sext12_eq_extended (imm : BitVec 12) : sext12 imm = extended imm := signExtend_eq_extended imm

theorem sext13_eq_extended (off : BitVec 13) : sext13 off = extended off := signExtend_eq_extended off

theorem sext21_eq_extended (off : BitVec 21) : sext21 off = extended off := signExtend_eq_extended off

/-- A branch writes pc only, taken or not (R107). -/
theorem pcOnly_branch (s : State) (c : Bool) (off : Word) :
    PcOnly s (if c then s.pc + off else s.pc + 4#32) (s.branch c off) :=
  ⟨branch_pc s c off, readReg_branch s c off, branch_mem s c off, branch_cycles s c off, branch_status s c off,
    branch_params s c off⟩

/-- An instruction that ends in a branch on a condition that decides p goes to its offset where p holds, and on
to pc + 4 where it does not (R107). -/
theorem gives_branch {i : Instr} {s : State} {c : Bool} {off : BitVec 13} {p : Prop}
    (h : exec i s = .next (s.branch c (sext13 off))) (hc : c = true ↔ p) :
    Gives i s (fun t => (p → PcOnly s (s.pc + extended off) t) ∧ (¬ p → PcOnly s (s.pc + 4#32) t)) := by
  have hpc := pcOnly_branch s c (sext13 off)
  refine ⟨_, h, fun hp => ?_, fun hp => ?_⟩
  · rwa [if_pos (hc.2 hp), sext13_eq_extended] at hpc
  · rwa [if_neg (mt hc.1 hp)] at hpc

/-- The negated condition decides the negated proposition: BNE, BGE and BGEU (R109, R111, R113). -/
theorem not_eq_true_iff_not {c : Bool} {p : Prop} (hc : c = true ↔ p) : (!c) = true ↔ ¬ p := by
  rw [Bool.not_eq_true', ← Bool.not_eq_true, hc]

/-- Under the BRANCH opcode funct3 alone selects the instruction (R72). -/
theorem selects_branch {f3 : BitVec 3} {mk : Word → Instr} (h : ∀ w, funct3 w = f3 → decodeBranch w = mk w) :
    Selects 0x63#7 f3 mk :=
  fun w hop hf3 => (decode_branch hop).trans (h w hf3)

/-- Settles O14: funct3 selects the branch, and each branch's condition decides its comparison. -/
theorem branchesCompareAndJump : Obligations.BranchesCompareAndJump := by
  refine ⟨selects_branch fun w h => ?beq, selects_branch fun w h => ?bne, selects_branch fun w h => ?blt,
    selects_branch fun w h => ?bge, selects_branch fun w h => ?bltu, selects_branch fun w h => ?bgeu,
    fun rs1 rs2 off s => ?compare⟩
  case compare =>
    have heq := isEqual_iff (s.readReg rs1) (s.readReg rs2)
    have hlt := isLessSigned_iff (s.readReg rs1) (s.readReg rs2)
    have hltu := isLessUnsigned_iff (s.readReg rs1) (s.readReg rs2)
    exact ⟨gives_branch (exec_beq rs1 rs2 off s) heq,
      gives_branch (exec_bne rs1 rs2 off s) (not_eq_true_iff_not heq),
      gives_branch (exec_blt rs1 rs2 off s) hlt,
      gives_branch (exec_bge rs1 rs2 off s) (not_eq_true_iff_not hlt),
      gives_branch (exec_bltu rs1 rs2 off s) hltu,
      gives_branch (exec_bgeu rs1 rs2 off s) (not_eq_true_iff_not hltu)⟩
  all_goals simp [decodeBranch, h]

end Sys2Proof.Claims
end

section
/-! The two jumps: the link register and the target with bit 0 cleared, and the mnemonics the assembler lacks
(30_encoding.md R91, 41_control_transfer.md R104 to R106). -/

namespace Sys2Proof.Machine

theorem exec_jal (rd : RegIdx) (off : BitVec 21) (s : State) :
    exec (.jal rd off) s = .next (s.linkAndJump rd (s.pc + sext21 off)) := rfl

/-- JALR adds its offset to pc, and rs1 plays no part (R106). -/
theorem exec_jalr (rd rs1 : RegIdx) (off : BitVec 12) (s : State) :
    exec (.jalr rd rs1 off) s = .next (s.linkAndJump rd (s.pc + sext12 off)) := rfl

/-- The format of a mnemonic stands in one of the assembler's tables (30_encoding.md R84). -/
theorem asmFormat_mem {m : List Char} {f : AsmFormat} (h : asmFormat m = .ok f) :
    f ∈ (asmTableR ++ asmTableI ++ asmTableSBU).map Prod.snd := by
  unfold asmFormat at h
  split at h
  · next row hrow => cases h; exact List.mem_map_of_mem (List.mem_of_find?_eq_some hrow)
  · cases h

/-- No mnemonic has the opcode of JAL (R91). -/
theorem jal_format_notMem :
    ∀ f3, AsmFormat.i 0x6F#7 f3 ∉ (asmTableR ++ asmTableI ++ asmTableSBU).map Prod.snd := by
  decide

end Sys2Proof.Machine

namespace Sys2Proof.Claims
open Sys2Proof.Machine

/-- An instruction that ends in a link and jump writes rd and pc, and nothing else (R104). -/
theorem gives_linkAndJump {i : Instr} {s : State} {rd : RegIdx} {target : Word}
    (h : exec i s = .next (s.linkAndJump rd target)) :
    Gives i s (fun t => Wrote s t rd (s.pc + 4#32) ∧ t.pc = target &&& 0xFFFFFFFE#32 ∧ SameRest s t) :=
  ⟨_, h, wrote_of_readReg fun r => readReg_linkAndJump s rd r target, linkAndJump_pc s rd target,
    linkAndJump_mem s rd target, linkAndJump_cycles s rd target, linkAndJump_status s rd target,
    linkAndJump_params s rd target⟩

/-- Settles O12: the opcode selects JAL, which links and jumps from its own pc, and no mnemonic has that
opcode. -/
theorem jalLinksAndJumps : Obligations.JalLinksAndJumps := by
  refine ⟨fun w hop => decode_jal hop, fun rd off s => ?_, fun m op f3 h hop => ?_⟩
  · rw [← sext21_eq_extended]
    exact gives_linkAndJump (exec_jal rd off s)
  · subst hop
    exact jal_format_notMem f3 (asmFormat_mem h)

/-- Settles O13: opcode and funct3 000 select JALR, which links and jumps from its own pc; the other values of
funct3 are among the illegal encodings of R76. -/
theorem jalrIsPcRelative : Obligations.JalrIsPcRelative := by
  refine ⟨fun w hop hf3 => (decode_jalr hop).trans (if_pos hf3), fun rd rs1 off s => ?_, fun w s hop hf3 => ?_⟩
  · rw [← sext12_eq_extended]
    exact gives_linkAndJump (exec_jalr rd rs1 off s)
  · have hreason : illegalReason w = some .invalidFunct3 := (illegalReason_jalr hop).trans (if_pos hf3)
    exact (illegalWordsAreTheListed w).2 .invalidFunct3 hreason s

end Sys2Proof.Claims
end

section
/-! Loads and stores at a data index: the bits a load extends, the word a store merges, and the frame of each
(20_memory.md R44, R46, 42_load_store.md R116 to R126). -/

namespace Sys2Proof.Machine

section
variable (rd rs1 rs2 : RegIdx) (off : BitVec 12) (s : State)

theorem exec_lb : exec (.lb rd rs1 off) s = .next (s.loadReg rd rs1 off .byte (BitVec.signExtend 32)) := rfl

theorem exec_lh : exec (.lh rd rs1 off) s = .next (s.loadReg rd rs1 off .half (BitVec.signExtend 32)) := rfl

theorem exec_lw : exec (.lw rd rs1 off) s = .next (s.loadReg rd rs1 off .word (BitVec.setWidth 32)) := rfl

theorem exec_lbu : exec (.lbu rd rs1 off) s = .next (s.loadReg rd rs1 off .byte (BitVec.setWidth 32)) := rfl

theorem exec_lhu : exec (.lhu rd rs1 off) s = .next (s.loadReg rd rs1 off .half (BitVec.setWidth 32)) := rfl

theorem exec_sb : exec (.sb rs1 rs2 off) s = .next (s.storeReg rs1 rs2 off .byte) := rfl

theorem exec_sh : exec (.sh rs1 rs2 off) s = .next (s.storeReg rs1 rs2 off .half) := rfl

theorem exec_sw : exec (.sw rs1 rs2 off) s = .next (s.storeReg rs1 rs2 off .word) := rfl

end

/-- At a data index a load writes the extended bits of that word to rd and advances (R116). -/
theorem loadReg_of_dataIndex {s : State} {rs1 : RegIdx} {off : BitVec 12} {idx : Nat}
    (h : dataIndex s.params (s.effectiveAddress rs1 off) = some idx) (rd : RegIdx) (n : Width)
    (ext : BitVec n.bits → Word) :
    s.loadReg rd rs1 off n ext = s.writeAndAdvance rd (ext (s.memRead idx n)) := by
  simp only [State.loadReg, h]

/-- At a data index a store merges x[rs2] into that word and advances (R123). -/
theorem storeReg_of_dataIndex {s : State} {rs1 : RegIdx} {off : BitVec 12} {idx : Nat}
    (h : dataIndex s.params (s.effectiveAddress rs1 off) = some idx) (rs2 : RegIdx) (n : Width) :
    s.storeReg rs1 rs2 off n = (s.memWrite idx n (s.readReg rs2)).advance := by
  simp only [State.storeReg, h]

/-- A merged word is the kept high bits of the old word above the low bits of the new one (R46). -/
theorem mergeLow_eq_append (n : Width) {l : Nat} (hl : l + n.bits = 32) (old v : Word) :
    mergeLow n old v = (old.extractLsb' n.bits l ++ v.extractLsb' 0 n.bits).cast hl := by
  apply BitVec.eq_of_getLsbD_eq
  intro i hi
  rw [getLsbD_mergeLow n old v i hi, BitVec.getLsbD_cast, BitVec.getLsbD_append]
  by_cases hlow : i < n.bits
  · simp [hlow]
  · have hhigh : i - n.bits < l ∧ n.bits + (i - n.bits) = i := by omega
    simp [hlow, hhigh]

end Sys2Proof.Machine

namespace Sys2Proof.Claims
open Sys2Proof.Machine

/-- The index of the statements is the one the load and the store look up (R43, R44). -/
theorem indexOf_eq_dataIndex (s : State) (rs1 : RegIdx) (off : BitVec 12) :
    indexOf s rs1 off = dataIndex s.params (s.effectiveAddress rs1 off) := by
  rw [indexOf, State.effectiveAddress, sext12_eq_extended]

/-- The low bits of a word, sign-extended: LB and LH (R117, R118). -/
theorem signExtend_setWidth_eq_extended (m : Word) {k : Nat} (hk : k ≤ 32) :
    (m.setWidth k).signExtend 32 = extended (m.extractLsb' 0 k) := by
  rw [BitVec.setWidth_eq_extractLsb' hk, signExtend_eq_extended]

/-- The low bits of a word, zero-extended: LBU and LHU (R120, R121). -/
theorem setWidth_setWidth_eq_ofNat_mod (m : Word) (k : Nat) :
    (m.setWidth k).setWidth 32 = BitVec.ofNat 32 (m.toNat % 2 ^ k) :=
  BitVec.eq_of_toNat_eq (by simp)

/-- An instruction that ends in a load of the indexed word gives the frame of one that writes rd and goes on. -/
theorem gives_loadReg {i : Instr} {s : State} {rd rs1 : RegIdx} {off : BitVec 12} {idx : Nat} {n : Width}
    {ext : BitVec n.bits → Word} {v : Word} (hidx : indexOf s rs1 off = some idx)
    (hexec : exec i s = .next (s.loadReg rd rs1 off n ext))
    (hv : ext ((s.mem.read idx).setWidth n.bits) = v) : Gives i s (WroteAndNext s rd v) := by
  rw [indexOf_eq_dataIndex] at hidx
  rw [loadReg_of_dataIndex hidx, State.memRead, hv] at hexec
  exact gives_wroteAndNext hexec

/-- A write of the merged word, and pc + 4, is the frame of a store (R53, R123). -/
theorem stored_memWrite_advance (s : State) (idx : Nat) (n : Width) (v : Word) :
    Stored s idx (mergeLow n (s.mem.read idx) v) (s.memWrite idx n v).advance :=
  ⟨fun k => Memory.read_write s.mem idx k _, fun r => readReg_memWrite s idx n v r, rfl, rfl, rfl, rfl⟩

/-- Each of the three stores is a store of one width, and its listed word is the merge at that width. -/
theorem exec_of_mem_storesOver {s : State} {rs1 rs2 : RegIdx} {off : BitVec 12} {m : Word} {p : Instr × Word}
    (hp : p ∈ storesOver s rs1 rs2 off m) :
    ∃ n, exec p.1 s = .next (s.storeReg rs1 rs2 off n) ∧ p.2 = mergeLow n m (s.readReg rs2) := by
  simp only [storesOver, List.mem_cons, List.not_mem_nil, or_false] at hp
  rcases hp with rfl | rfl | rfl
  · exact ⟨.byte, exec_sb rs1 rs2 off s, (mergeLow_eq_append .byte (l := 24) rfl m _).symm⟩
  · exact ⟨.half, exec_sh rs1 rs2 off s, (mergeLow_eq_append .half (l := 16) rfl m _).symm⟩
  · exact ⟨.word, exec_sw rs1 rs2 off s, (mergeLow_word m _).symm⟩

/-- Under the LOAD opcode funct3 alone selects the instruction (30_encoding.md R72). -/
theorem selects_load {f3 : BitVec 3} {mk : Word → Instr} (h : ∀ w, funct3 w = f3 → decodeLoad w = mk w) :
    Selects 0x03#7 f3 mk :=
  fun w hop hf3 => (decode_load hop).trans (h w hf3)

/-- Under the STORE opcode funct3 alone selects the instruction (30_encoding.md R72). -/
theorem selects_store {f3 : BitVec 3} {mk : Word → Instr} (h : ∀ w, funct3 w = f3 → decodeStore w = mk w) :
    Selects 0x23#7 f3 mk :=
  fun w hop hf3 => (decode_store hop).trans (h w hf3)

/-- Settles O16: funct3 selects the load, and each load writes its extension of the low bits of the indexed
word. -/
theorem loadsReadIndexedWord : Obligations.LoadsReadIndexedWord := by
  refine ⟨selects_load fun w h => ?lb, selects_load fun w h => ?lh, selects_load fun w h => ?lw,
    selects_load fun w h => ?lbu, selects_load fun w h => ?lhu, fun rd rs1 off s idx hidx => ?loads⟩
  case loads =>
    have hsigned := fun k (hk : k ≤ 32) => signExtend_setWidth_eq_extended (s.mem.read idx) hk
    have hunsigned := setWidth_setWidth_eq_ofNat_mod (s.mem.read idx)
    exact ⟨gives_loadReg hidx (exec_lb rd rs1 off s) (hsigned 8 (by decide)),
      gives_loadReg hidx (exec_lh rd rs1 off s) (hsigned 16 (by decide)),
      gives_loadReg hidx (exec_lw rd rs1 off s) (by simp [Width.bits]),
      gives_loadReg hidx (exec_lbu rd rs1 off s) (hunsigned 8),
      gives_loadReg hidx (exec_lhu rd rs1 off s) (hunsigned 16)⟩
  all_goals simp [decodeLoad, h]

/-- Settles O17: funct3 selects the store, and each store leaves its merged word at the data index alone. -/
theorem storesMergeIntoIndexedWord : Obligations.StoresMergeIntoIndexedWord := by
  refine ⟨selects_store fun w h => ?sb, selects_store fun w h => ?sh, selects_store fun w h => ?sw,
    fun rs1 rs2 off s idx hidx p hp => ?stores⟩
  case stores =>
    obtain ⟨n, hexec, hmerged⟩ := exec_of_mem_storesOver hp
    rw [indexOf_eq_dataIndex] at hidx
    rw [storeReg_of_dataIndex hidx] at hexec
    rw [hmerged]
    exact ⟨_, hexec, stored_memWrite_advance s idx n (s.readReg rs2)⟩
  all_goals simp [decodeStore, h]

end Sys2Proof.Claims
end

section
/-! The register-immediate instructions: the operand's immediate as an integer, the 1 or 0 of a set-if-less-than,
and the shift-immediates, which only advance (00_scope.md R11, R12, 43_alu_immediate.md R128 to R138). -/

namespace Sys2Proof.Machine

section
variable (rd rs1 : RegIdx) (imm : BitVec 12) (s : State)

theorem exec_addi : exec (.addi rd rs1 imm) s =
    .next (s.writeAndAdvance rd (s.readReg rs1 + sext12 imm)) := rfl

theorem exec_slti : exec (.slti rd rs1 imm) s =
    .next (s.writeAndAdvance rd (boolWord (isLessSigned (s.readReg rs1) (sext12 imm)))) := rfl

theorem exec_sltiu : exec (.sltiu rd rs1 imm) s =
    .next (s.writeAndAdvance rd (boolWord (isLessUnsigned (s.readReg rs1) (sext12 imm)))) := rfl

theorem exec_xori : exec (.xori rd rs1 imm) s =
    .next (s.writeAndAdvance rd (s.readReg rs1 ^^^ sext12 imm)) := rfl

theorem exec_ori : exec (.ori rd rs1 imm) s =
    .next (s.writeAndAdvance rd (s.readReg rs1 ||| sext12 imm)) := rfl

theorem exec_andi : exec (.andi rd rs1 imm) s =
    .next (s.writeAndAdvance rd (s.readReg rs1 &&& sext12 imm)) := rfl

theorem exec_slli : exec (.slli rd rs1 imm) s = .next s.advance := rfl

theorem exec_srli (sh : BitVec 5) : exec (.srli rd rs1 sh) s = .next s.advance := rfl

theorem exec_srai (sh : BitVec 5) : exec (.srai rd rs1 sh) s = .next s.advance := rfl

theorem exec_srxi (sh : BitVec 5) (f7 : BitVec 7) : exec (.srxi rd rs1 sh f7) s = .next s.advance := rfl

end

end Sys2Proof.Machine

namespace Sys2Proof.Claims
open Sys2Proof.Machine

/-- The word of an encoded immediate, read signed, is the immediate's integer value (R12). -/
theorem toInt_extended_imm12 (imm : BitVec 12) : (extended imm).toInt = imm.toInt := by
  rw [← signExtend_eq_extended]
  exact BitVec.toInt_signExtend_of_le (by decide)

/-- The same word read unsigned is that value mod 2^32 (R11, R131). -/
theorem toNat_extended {n : Nat} (imm : BitVec n) : ((extended imm).toNat : Int) = imm.toInt % 2 ^ 32 := by
  rw [extended, BitVec.toNat_ofInt]
  exact Int.toNat_of_nonneg (Int.emod_nonneg _ (by decide))

/-- Addition mod 2^32 is that of the integer values (R129). -/
theorem add_extended (a : Word) {n : Nat} (imm : BitVec n) :
    a + extended imm = BitVec.ofInt 32 (a.toInt + imm.toInt) := by
  rw [BitVec.ofInt_add, BitVec.ofInt_toInt, extended]

/-- The result of a set-if-less-than is the 1 or 0 of the proposition its comparison decides (R130, R131). -/
theorem boolWord_eq_bit {c : Bool} {p : Prop} [Decidable p] (hc : c = true ↔ p) : boolWord c = bit p :=
  if_congr hc rfl rfl

theorem isLessSigned_extended_iff (a : Word) (imm : BitVec 12) :
    isLessSigned a (extended imm) = true ↔ a.toInt < imm.toInt := by
  rw [isLessSigned_iff, toInt_extended_imm12]

/-- The unsigned comparison takes the sign-extended immediate mod 2^32 (R131). -/
theorem isLessUnsigned_extended_iff (a : Word) {n : Nat} (imm : BitVec n) :
    isLessUnsigned a (extended imm) = true ↔ (a.toNat : Int) < imm.toInt % 2 ^ 32 := by
  rw [isLessUnsigned_iff, ← toNat_extended, Int.ofNat_lt]

/-- An instruction that ends in an advance gives the frame of one that writes pc only (R135). -/
theorem gives_pcOnly_advance {i : Instr} {s : State} (h : exec i s = .next s.advance) :
    Gives i s (PcOnly s (s.pc + 4#32)) :=
  ⟨_, h, advance_pc s, readReg_advance s, advance_mem s, advance_cycles s, advance_status s, advance_params s⟩

/-- Under the OP-IMM opcode funct3 selects the instruction (30_encoding.md R72). -/
theorem selects_opImm {f3 : BitVec 3} {mk : Word → Instr} (h : ∀ w, funct3 w = f3 → decodeOpImm w = mk w) :
    Selects 0x13#7 f3 mk :=
  fun w hop hf3 => (decode_opImm hop).trans (h w hf3)

/-- Under funct3 101 of OP-IMM funct7 selects the instruction (30_encoding.md R72, R138). -/
theorem selects_shiftRightImm {ok : BitVec 7 → Prop} {mk : Word → Instr}
    (h : ∀ w, ok (funct7 w) → decodeShiftRightImm w = mk w) : SelectsWithFunct7 0x13#7 0b101#3 ok mk := by
  intro w hop hf3 hf7
  have hrow : decodeOpImm w = decodeShiftRightImm w := by simp [decodeOpImm, hf3]
  exact (decode_opImm hop).trans (hrow.trans (h w hf7))

/-- Settles O21: funct3 selects the operation, and each writes its value of x[rs1] and the extended immediate. -/
theorem aluImmediateResults : Obligations.AluImmediateResults := by
  refine ⟨selects_opImm fun w h => ?addi, selects_opImm fun w h => ?slti, selects_opImm fun w h => ?sltiu,
    selects_opImm fun w h => ?xori, selects_opImm fun w h => ?ori, selects_opImm fun w h => ?andi,
    fun rd rs1 imm s => ?results⟩
  case results =>
    have hlt := isLessSigned_extended_iff (s.readReg rs1) imm
    have hltu := isLessUnsigned_extended_iff (s.readReg rs1) imm
    dsimp only
    rw [← add_extended, ← boolWord_eq_bit hlt, ← boolWord_eq_bit hltu, ← sext12_eq_extended]
    exact ⟨gives_wroteAndNext (exec_addi rd rs1 imm s), gives_wroteAndNext (exec_slti rd rs1 imm s),
      gives_wroteAndNext (exec_sltiu rd rs1 imm s), gives_wroteAndNext (exec_xori rd rs1 imm s),
      gives_wroteAndNext (exec_ori rd rs1 imm s), gives_wroteAndNext (exec_andi rd rs1 imm s)⟩
  all_goals simp [decodeOpImm, h]

/-- Settles O22: funct3 and funct7 select the shift-immediate, and all four end in an advance alone. -/
theorem shiftImmediatesOnlyAdvance : Obligations.ShiftImmediatesOnlyAdvance := by
  refine ⟨selects_opImm fun w h => ?slli, selects_shiftRightImm fun w h => ?srli,
    selects_shiftRightImm fun w h => ?srai, selects_shiftRightImm fun w h => ?srxi,
    fun rd rs1 imm sh f7 s i hi => gives_pcOnly_advance ?advance⟩
  case slli => simp [decodeOpImm, h]
  case advance =>
    simp only [List.mem_cons, List.not_mem_nil, or_false] at hi
    rcases hi with rfl | rfl | rfl | rfl
    · exact exec_slli rd rs1 imm s
    · exact exec_srli rd rs1 s sh
    · exact exec_srai rd rs1 s sh
    · exact exec_srxi rd rs1 s sh f7
  all_goals simp [decodeShiftRightImm, h]

end Sys2Proof.Claims
end

section
/-! The register-register instructions: the sum, difference and shifts as integer operations, funct7 of the OP
opcode, and SRL and SRA with the frame that leaves pc to SRX_ADVANCES_PC (00_scope.md R11, 44_alu_register.md
R140 to R152). -/

namespace Sys2Proof.Machine

section
variable (rd rs1 rs2 : RegIdx) (f7 : BitVec 7) (s : State)

theorem exec_add : exec (.add rd rs1 rs2) s =
    .next (s.writeAndAdvance rd (s.readReg rs1 + s.readReg rs2)) := rfl

theorem exec_sub : exec (.sub rd rs1 rs2) s =
    .next (s.writeAndAdvance rd (s.readReg rs1 - s.readReg rs2)) := rfl

theorem exec_sll : exec (.sll rd rs1 rs2 f7) s =
    .next (s.writeAndAdvance rd (s.readReg rs1 <<< shiftAmount (s.readReg rs2))) := rfl

theorem exec_slt : exec (.slt rd rs1 rs2 f7) s =
    .next (s.writeAndAdvance rd (boolWord (isLessSigned (s.readReg rs1) (s.readReg rs2)))) := rfl

theorem exec_sltu : exec (.sltu rd rs1 rs2 f7) s =
    .next (s.writeAndAdvance rd (boolWord (isLessUnsigned (s.readReg rs1) (s.readReg rs2)))) := rfl

theorem exec_srl : exec (.srl rd rs1 rs2) s =
    .next (s.writeShiftRight rd (s.readReg rs1 >>> shiftAmount (s.readReg rs2))) := rfl

theorem exec_sra : exec (.sra rd rs1 rs2 f7) s =
    .next (s.writeShiftRight rd ((s.readReg rs1).sshiftRight (shiftAmount (s.readReg rs2)))) := rfl

theorem exec_or : exec (.or rd rs1 rs2 f7) s =
    .next (s.writeAndAdvance rd (s.readReg rs1 ||| s.readReg rs2)) := rfl

theorem exec_and : exec (.and rd rs1 rs2 f7) s =
    .next (s.writeAndAdvance rd (s.readReg rs1 &&& s.readReg rs2)) := rfl

end

section
variable (a b : Word)

/-- Addition mod 2^32 is that of the signed values (R141). -/
theorem add_eq_ofInt_toInt : a + b = BitVec.ofInt 32 (a.toInt + b.toInt) := by
  rw [BitVec.ofInt_add, BitVec.ofInt_toInt, BitVec.ofInt_toInt]

/-- Subtraction mod 2^32 is that of the signed values (R142). -/
theorem sub_eq_ofInt_toInt : a - b = BitVec.ofInt 32 (a.toInt - b.toInt) :=
  BitVec.eq_of_toInt_eq (by rw [BitVec.toInt_sub, BitVec.toInt_ofInt])

/-- SLL multiplies the unsigned value by 2^b[4:0], mod 2^32 (R144). -/
theorem shiftLeft_shiftAmount : a <<< shiftAmount b = BitVec.ofNat 32 (a.toNat * 2 ^ (b.toNat % 32)) := by
  rw [shiftAmount_eq]
  exact BitVec.eq_of_toNat_eq (by rw [BitVec.toNat_shiftLeft, Nat.shiftLeft_eq, BitVec.toNat_ofNat])

/-- SRL divides the unsigned value by 2^b[4:0] (R149). -/
theorem ushiftRight_shiftAmount : a >>> shiftAmount b = BitVec.ofNat 32 (a.toNat / 2 ^ (b.toNat % 32)) := by
  rw [shiftAmount_eq, ← Nat.shiftRight_eq_div_pow, ← BitVec.toNat_ushiftRight, BitVec.ofNat_toNat,
    BitVec.setWidth_eq]

/-- SRA divides the signed value by 2^b[4:0], toward minus infinity, so bit 31 is replicated (R150). -/
theorem sshiftRight_shiftAmount :
    a.sshiftRight (shiftAmount b) = BitVec.ofInt 32 (a.toInt / 2 ^ (b.toNat % 32)) := by
  rw [shiftAmount_eq, BitVec.sshiftRight, Int.shiftRight_eq_div_pow, Nat.cast_pow, Nat.cast_ofNat]

end

end Sys2Proof.Machine

namespace Sys2Proof.Claims
open Sys2Proof.Machine

/-- Under the OP opcode funct3 selects the instruction where funct7 is not examined (30_encoding.md R72, R73). -/
theorem selects_op {f3 : BitVec 3} {mk : Word → Instr} (h : ∀ w, funct3 w = f3 → decodeOp w = mk w) :
    Selects 0x33#7 f3 mk :=
  fun w hop hf3 => (decode_op hop).trans (h w hf3)

/-- Under the OP opcode funct3 and funct7 select the instruction where funct7 is examined (30_encoding.md R74). -/
theorem selectsWithFunct7_op {f3 : BitVec 3} {ok : BitVec 7 → Prop} {mk : Word → Instr}
    (h : ∀ w, funct3 w = f3 → ok (funct7 w) → decodeOp w = mk w) : SelectsWithFunct7 0x33#7 f3 ok mk :=
  fun w hop hf3 hf7 => (decode_op hop).trans (h w hf3 hf7)

/-- An instruction that ends in writeShiftRight writes rd, and pc is as SRX_ADVANCES_PC says (R148). -/
theorem gives_writeShiftRight {i : Instr} {s : State} {rd : RegIdx} {v : Word}
    (h : exec i s = .next (s.writeShiftRight rd v)) :
    Gives i s (fun t => Wrote s t rd v ∧ SameRest s t ∧ (s.params.srxAdvancesPc = false → t.pc = s.pc) ∧
      (s.params.srxAdvancesPc = true → t.pc = s.pc + 4#32)) := by
  have hpc := writeShiftRight_pc s rd v
  refine ⟨_, h, wrote_of_readReg fun r => readReg_writeShiftRight s rd r v,
    ⟨writeShiftRight_mem s rd v, writeShiftRight_cycles s rd v, writeShiftRight_status s rd v,
      writeShiftRight_params s rd v⟩, fun hstay => ?_, fun hadv => ?_⟩
  · rw [hpc, hstay]; rfl
  · rw [hpc, hadv]; rfl

/-- Settles O23: funct3 selects the operation, funct7 too for ADD and SUB, and each writes its value of x[rs1]
and x[rs2]. -/
theorem aluRegisterResults : Obligations.AluRegisterResults := by
  refine ⟨selectsWithFunct7_op fun w h h7 => ?add, selectsWithFunct7_op fun w h h7 => ?sub,
    selects_op fun w h => ?sll, selects_op fun w h => ?slt, selects_op fun w h => ?sltu,
    selects_op fun w h => ?or, selects_op fun w h => ?and, fun rd rs1 rs2 f7 s => ?results⟩
  case results =>
    have hlt := isLessSigned_iff (s.readReg rs1) (s.readReg rs2)
    have hltu := isLessUnsigned_iff (s.readReg rs1) (s.readReg rs2)
    dsimp only
    rw [← add_eq_ofInt_toInt, ← sub_eq_ofInt_toInt, ← shiftLeft_shiftAmount, ← boolWord_eq_bit hlt,
      ← boolWord_eq_bit hltu]
    exact ⟨gives_wroteAndNext (exec_add rd rs1 rs2 s), gives_wroteAndNext (exec_sub rd rs1 rs2 s),
      gives_wroteAndNext (exec_sll rd rs1 rs2 f7 s), gives_wroteAndNext (exec_slt rd rs1 rs2 f7 s),
      gives_wroteAndNext (exec_sltu rd rs1 rs2 f7 s), gives_wroteAndNext (exec_or rd rs1 rs2 f7 s),
      gives_wroteAndNext (exec_and rd rs1 rs2 f7 s)⟩
  case add | sub => simp [decodeOp, decodeAddSub, h, h7]
  all_goals simp [decodeOp, h]

/-- Settles O24: funct3 101 with funct7 0 selects SRL and with any other funct7 SRA, and both end in the write
of rd that leaves pc to SRX_ADVANCES_PC. -/
theorem shiftRightWritesWithoutAdvance : Obligations.ShiftRightWritesWithoutAdvance := by
  refine ⟨selectsWithFunct7_op fun w h h7 => ?srl, selectsWithFunct7_op fun w h h7 => ?sra,
    fun rd rs1 rs2 f7 s => ?results⟩
  case results =>
    dsimp only
    rw [← ushiftRight_shiftAmount, ← sshiftRight_shiftAmount]
    exact ⟨gives_writeShiftRight (exec_srl rd rs1 rs2 s), gives_writeShiftRight (exec_sra rd rs1 rs2 f7 s)⟩
  all_goals simp [decodeOp, h, h7]

end Sys2Proof.Claims
end

section
/-! The step by the word it fetches, the FENCE and SYSTEM words, and what an executed instruction leaves in the
status: its fatal outcome with nothing else changed, or none (45_step_halt_invalid.md R153, R156, R157, R159,
60_exceptions.md R160, R161). -/

namespace Sys2Proof.Machine

/-- In Fatal no step exists (10_state.md R28, 70_reset_and_hazards.md R184). -/
theorem step_of_status_eq_fatal {s : State} {r : FatalReason} (h : s.status = .fatal r) :
    step s = .fault (.terminated r) := by
  simp only [step, h]

end Sys2Proof.Machine

namespace Sys2Proof.Claims
open Sys2Proof.Machine

/-- Settles O29: the status lets the step fetch or not, and the fetch decides between exec and Fatal. -/
theorem stepRunsDecodedInstruction : Obligations.StepRunsDecodedInstruction :=
  ⟨fun _ _ hs hw => (step_eq_fetchAndExecute hs).trans (fetchAndExecute_of_fetch_eq_some hw),
    fun _ hs hnone => (step_eq_fetchAndExecute hs).trans (fetchAndExecute_of_fetch_eq_none hnone),
    fun _ _ hr => step_of_status_eq_fatal hr⟩

/-- Settles O28: each of the two opcodes selects a FATAL row whose reason is InvalidOpcode. -/
theorem miscMemAndSystemAreInvalid : Obligations.MiscMemAndSystemAreInvalid := by
  intro w s hop
  rcases hop with hmisc | hsys
  · rw [decode_miscMem hmisc]
    exact ⟨_, exec_of_rowReason rfl s, rfl⟩
  · rw [decode_system hsys]
    exact ⟨_, exec_of_rowReason rfl s, rfl⟩

/-- The address is fatal exactly where the access has no data index (20_memory.md R44, R45). -/
theorem addressFatal_eq (s : State) (rs1 : RegIdx) (off : BitVec 12) :
    addressFatal s rs1 off =
      if dataIndex s.params (s.effectiveAddress rs1 off) = none then some .dataAddressNegative else none := by
  rw [addressFatal, ← sext12_eq_extended]
  exact if_congr dataIndex_eq_none_iff.symm rfl rfl

/-- t is what an instruction of fatal outcome o leaves of s: s with Fatal raised and nothing else, or a state
with the status st. -/
def HasOutcome (o : Option FatalReason) (st : RunStatus) (s t : State) : Prop :=
  (∃ r, o = some r ∧ t = s.raiseFatal r) ∨ (o = none ∧ t.status = st)

theorem hasOutcome_loadReg (s : State) (rd rs1 : RegIdx) (off : BitVec 12) (n : Width)
    (ext : BitVec n.bits → Word) :
    HasOutcome (addressFatal s rs1 off) s.status s (s.loadReg rd rs1 off n ext) := by
  rw [addressFatal_eq]
  rcases loadReg_cases s rd rs1 off n ext with ⟨hidx, h⟩ | ⟨idx, hidx, h⟩
  · exact .inl ⟨_, if_pos hidx, h⟩
  · exact .inr ⟨by simp [hidx], by rw [h, writeAndAdvance_status]⟩

theorem hasOutcome_storeReg (s : State) (rs1 rs2 : RegIdx) (off : BitVec 12) (n : Width) :
    HasOutcome (addressFatal s rs1 off) s.status s (s.storeReg rs1 rs2 off n) := by
  rw [addressFatal_eq]
  rcases storeReg_cases s rs1 rs2 off n with ⟨hidx, h⟩ | ⟨idx, hidx, h⟩
  · exact .inl ⟨_, if_pos hidx, h⟩
  · exact .inr ⟨by simp [hidx], by rw [h, advance_status, memWrite_status]⟩

/-- exec raises the instruction's fatal outcome and does nothing else; without one, only the halt word changes
the status. Effect says the same of the state, but leaves the reason open. -/
theorem hasOutcome_exec {i : Instr} {s t : State} (h : exec i s = .next t) :
    HasOutcome (fatalOutcome s i) (if i = .halt then .halted else s.status) s t := by
  cases i
  case lb | lh | lw | lbu | lhu => cases h; exact hasOutcome_loadReg s _ _ _ _ _
  case sb | sh | sw => cases h; exact hasOutcome_storeReg s _ _ _ _
  case fatalJalrFunct3 | fatalBranchFunct3 | fatalLoadFunct3 | fatalStoreFunct3 | fatalOpXor | fatalOpFunct7 |
      fatalMiscMem | fatalSystem | fatalInvalidOpcode =>
    cases h; exact .inl ⟨_, rfl, rfl⟩
  all_goals cases h; exact .inr ⟨rfl, by simp⟩

/-- An instruction that enters Fatal does it by its fatal outcome, and changes the status only (R159). -/
theorem eq_raiseFatal_of_exec {i : Instr} {s t : State} {r : FatalReason} (h : exec i s = .next t)
    (hs : NotFatal s) (ht : t.status = .fatal r) : fatalOutcome s i = some r ∧ t = s.raiseFatal r := by
  rcases hasOutcome_exec h with ⟨r', hr', rfl⟩ | ⟨-, hst⟩
  · cases ht; exact ⟨hr', rfl⟩
  · rw [ht] at hst
    split at hst
    · cases hst
    · exact absurd hst.symm (hs r)

/-- The reason FetchOutOfBounds is the step's own: no instruction raises it (R160). -/
theorem fatalOutcome_ne_fetchOutOfBounds (s : State) (i : Instr) :
    fatalOutcome s i ≠ some .fetchOutOfBounds := by
  have haddr : ∀ rs1 off, addressFatal s rs1 off ≠ some .fetchOutOfBounds := fun rs1 off => by
    unfold addressFatal; split <;> nofun
  cases i
  case lb | lh | lw | lbu | lhu | sb | sh | sw => exact haddr _ _
  all_goals nofun

/-- Settles O34: a step ends Fatal at its fetch, before it counts, or by the fatal outcome of the instruction,
which starts in the counted state and raises it. -/
theorem fatalStepIsPrecise : Obligations.FatalStepIsPrecise := by
  intro s t r hstep hfatal
  obtain ⟨-, ⟨-, rfl⟩ | ⟨w, -, hexec⟩⟩ := step_cases hstep
  · cases hfatal
    exact ⟨rfl, rfl, rfl, rfl, rfl⟩
  · have hrunning : NotFatal s.beginExecute := nofun
    obtain ⟨hr, rfl⟩ := eq_raiseFatal_of_exec hexec hrunning hfatal
    have hne : r ≠ .fetchOutOfBounds := by
      rintro rfl
      exact fatalOutcome_ne_fetchOutOfBounds _ _ hr
    exact ⟨rfl, rfl, rfl, rfl, (if_neg hne).symm⟩

end Sys2Proof.Claims
end

section
/-! The order of the tests within one step: the reason of a word at decode before the reason of its data access,
and both before an instruction completes (60_exceptions.md R162). -/

namespace Sys2Proof.Claims
open Sys2Proof.Machine

/-- The reason the data access of the word w raises in s: a LOAD's or a STORE's address, none under the other
opcodes (60_exceptions.md R162, item 5). -/
def accessReason (s : State) (w : Word) : Option FatalReason :=
  if opcode w = 0x03#7 then addressFatal s (rs1Field w) (immI w)
  else if opcode w = 0x23#7 then addressFatal s (rs1Field w) (immS w)
  else none

theorem accessReason_load {w : Word} (h : opcode w = 0x03#7) (s : State) :
    accessReason s w = addressFatal s (rs1Field w) (immI w) := if_pos h

theorem accessReason_store {w : Word} (h : opcode w = 0x23#7) (s : State) :
    accessReason s w = addressFatal s (rs1Field w) (immS w) := by
  simp [accessReason, h]

theorem accessReason_of_not_access {w : Word} (hload : opcode w ≠ 0x03#7) (hstore : opcode w ≠ 0x23#7)
    (s : State) : accessReason s w = none := by
  simp [accessReason, hload, hstore]

theorem addressFatal_cases (s : State) (rs1 : RegIdx) (off : BitVec 12) :
    (((s.readReg rs1 + extended off).getLsbD 31 = true ∧ s.params.negEaPolicy = .fatal) ∧
        addressFatal s rs1 off = some .dataAddressNegative) ∨
      (¬ ((s.readReg rs1 + extended off).getLsbD 31 = true ∧ s.params.negEaPolicy = .fatal) ∧
        addressFatal s rs1 off = none) := by
  unfold addressFatal
  split
  next h => exact .inl ⟨h, rfl⟩
  next h => exact .inr ⟨h, rfl⟩

theorem negativeAddress_load {w : Word} (h : opcode w = 0x03#7) (s : State) :
    negativeAddress s w ↔ (s.readReg (rs1Field w) + extended (immI w)).getLsbD 31 = true := by
  simp [negativeAddress, h]

theorem negativeAddress_store {w : Word} (h : opcode w = 0x23#7) (s : State) :
    negativeAddress s w ↔ (s.readReg (rs1Field w) + extended (immS w)).getLsbD 31 = true := by
  simp [negativeAddress, h]

/-- The access raises DataAddressNegative where its address is negative and the policy is Fatal, and nothing
elsewhere (20_memory.md R45). -/
theorem accessReason_cases (s : State) (w : Word) :
    ((negativeAddress s w ∧ s.params.negEaPolicy = .fatal) ∧ accessReason s w = some .dataAddressNegative) ∨
      (¬ (negativeAddress s w ∧ s.params.negEaPolicy = .fatal) ∧ accessReason s w = none) := by
  by_cases hload : opcode w = 0x03#7
  · rw [accessReason_load hload, negativeAddress_load hload]
    exact addressFatal_cases s _ _
  by_cases hstore : opcode w = 0x23#7
  · rw [accessReason_store hstore, negativeAddress_store hstore]
    exact addressFatal_cases s _ _
  · exact .inr ⟨by simp [negativeAddress, hload, hstore], accessReason_of_not_access hload hstore s⟩

/-! The fatal outcome by opcode class: the row's reason at decode, then the access. -/

theorem fatalOutcome_decodeLoad (s : State) (w : Word) :
    fatalOutcome s (decodeLoad w) = (rowReason (decodeLoad w)).or (addressFatal s (rs1Field w) (immI w)) := by
  unfold decodeLoad
  split_ifs <;> rfl

theorem fatalOutcome_decodeStore (s : State) (w : Word) :
    fatalOutcome s (decodeStore w) = (rowReason (decodeStore w)).or (addressFatal s (rs1Field w) (immS w)) := by
  unfold decodeStore
  split_ifs <;> rfl

/-- Outside LOAD and STORE an instruction is fatal by its row alone. -/
theorem fatalOutcome_decode_of_not_access {w : Word} (hload : opcode w ≠ 0x03#7) (hstore : opcode w ≠ 0x23#7)
    (s : State) : fatalOutcome s (decode w) = rowReason (decode w) := by
  by_cases hw : w = 0#32
  · subst hw; rfl
  rcases opcode_cases w with h | h | h | h | h | h | h | h | h | h | h | ⟨hcore, hmisc, hsys⟩
  · rw [decode_lui h]; rfl
  · rw [decode_auipc h]; rfl
  · rw [decode_jal h]; rfl
  · rw [decode_jalr h]; split_ifs <;> rfl
  · rw [decode_branch h]; unfold decodeBranch; split_ifs <;> rfl
  · exact absurd h hload
  · exact absurd h hstore
  · rw [decode_opImm h]; unfold decodeOpImm decodeShiftRightImm; split_ifs <;> rfl
  · rw [decode_op h]; unfold decodeOp decodeAddSub; split_ifs <;> rfl
  · rw [decode_miscMem h]; rfl
  · rw [decode_system h]; rfl
  · rw [decode_invalid hw hcore hmisc hsys]; rfl

/-- The fatal outcome of a word is its reason at decode, or else that of its data access (R162, items 3 to 5). -/
theorem fatalOutcome_decode (s : State) (w : Word) :
    fatalOutcome s (decode w) = (illegalReason w).or (accessReason s w) := by
  rw [← rowReason_decode]
  by_cases hload : opcode w = 0x03#7
  · rw [decode_load hload, fatalOutcome_decodeLoad, accessReason_load hload]
  by_cases hstore : opcode w = 0x23#7
  · rw [decode_store hstore, fatalOutcome_decodeStore, accessReason_store hstore]
  · rw [fatalOutcome_decode_of_not_access hload hstore, accessReason_of_not_access hload hstore, Option.or_none]

theorem HasOutcome.status_eq {o : Option FatalReason} {st : RunStatus} {s t : State} (h : HasOutcome o st s t) :
    t.status = o.elim st .fatal := by
  rcases h with ⟨r, rfl, rfl⟩ | ⟨rfl, hst⟩
  · rfl
  · exact hst

/-- A word past the halt test leaves the status of its first reason, or the status it started in. -/
theorem status_of_exec_decode {s t : State} {w : Word} (hw : w ≠ 0#32) (h : exec (decode w) s = .next t) :
    t.status = ((illegalReason w).or (accessReason s w)).elim s.status .fatal := by
  rw [(hasOutcome_exec h).status_eq, fatalOutcome_decode, if_neg (decode_ne_halt hw)]

/-- Settles O33: the fetch decides before the count; then the zero word halts, and any other word has the status
of its reason at decode, of its data access, or Running. -/
theorem statusFollowsTestOrder : Obligations.StatusFollowsTestOrder := by
  intro s t hstep
  obtain ⟨-, ⟨hnone, rfl⟩ | ⟨w, hfetch, hexec⟩⟩ := step_cases hstep
  · refine ⟨?_, fun _ => rfl⟩
    simp only [StatusByOrder, if_pos (fetch_eq_none_iff.1 hnone)]
    rfl
  obtain ⟨hin, rfl⟩ := fetch_eq_some_iff.1 hfetch
  refine ⟨?_, fun hout => absurd hin hout.not_gt⟩
  simp only [StatusByOrder, if_neg hin.not_ge]
  split
  case isTrue hzero =>
    rw [hzero, decode_zero, exec_halt] at hexec
    cases hexec
    rfl
  case isFalse hw =>
    have hstatus := status_of_exec_decode hw hexec
    split
    next r hr => simpa [hr] using hstatus
    next hlegal =>
      rw [hlegal, Option.none_or] at hstatus
      rcases accessReason_cases s.beginExecute (s.mem.read (s.pc.toNat / 4)) with ⟨hneg, hreason⟩ | ⟨hneg, hreason⟩
      · rw [hreason] at hstatus
        exact ⟨fun _ => hstatus, fun h => absurd hneg h⟩
      · rw [hreason] at hstatus
        exact ⟨fun h => absurd h hneg, fun _ => hstatus⟩

end Sys2Proof.Claims
end

section
/-! Load by its bounds check, and what the host observes of the block (70_reset_and_hazards.md R181 to R185). -/

namespace Sys2Proof.Machine

/-- Outside Fatal the bounds check decides between writing the words and raising Fatal (R181, R182). -/
theorem load_eq_ite {s : State} (off : Nat) (ws : List Word) (hs : ∀ r, s.status ≠ .fatal r) :
    s.load off ws =
      if off + ws.length > s.params.memWords then .next (s.raiseFatal .loadOutOfBounds)
      else .next { s with mem := s.mem.writeWords off ws } := by
  unfold State.load
  split
  · next r hr => exact absurd hr (hs r)
  all_goals rfl

theorem load_of_le {s : State} {off : Nat} {ws : List Word} (hs : ∀ r, s.status ≠ .fatal r)
    (h : off + ws.length ≤ s.params.memWords) :
    s.load off ws = .next { s with mem := s.mem.writeWords off ws } :=
  (load_eq_ite off ws hs).trans (if_neg h.not_gt)

theorem load_of_gt {s : State} {off : Nat} {ws : List Word} (hs : ∀ r, s.status ≠ .fatal r)
    (h : s.params.memWords < off + ws.length) : s.load off ws = .next (s.raiseFatal .loadOutOfBounds) :=
  (load_eq_ite off ws hs).trans (if_pos h)

/-- Word off + k of the copied range is words[k] (R181). -/
theorem Memory.read_writeWords_add (m : Memory) (off : Nat) {ws : List Word} {k : Nat} (hk : k < ws.length) :
    (m.writeWords off ws).read (off + k) = (ws[k]?).getD 0#32 := by
  simp [Memory.read_writeWords, hk]

/-- No word outside the copied range changes. -/
theorem Memory.read_writeWords_of_not_mem (m : Memory) {off j : Nat} {ws : List Word}
    (h : j < off ∨ off + ws.length ≤ j) : (m.writeWords off ws).read j = m.read j := by
  have hout : ¬ (off ≤ j ∧ j - off < ws.length) := by omega
  rw [Memory.read_writeWords, dif_neg hout]

@[simp] theorem observe_regs_length (s : State) : s.observe.regs.length = 32 := by
  simp [State.observe]

@[simp] theorem observe_mem_length (s : State) : s.observe.mem.length = s.params.memWords := by
  simp [State.observe]

/-- The host observes of each word that exists what a read of it returns (R185). -/
theorem observe_mem_getElem? {s : State} {k : Nat} (hk : k < s.params.memWords) :
    s.observe.mem[k]? = some (s.mem.read k) := by
  simp [State.observe, List.getElem?_range hk]

end Sys2Proof.Machine

namespace Sys2Proof.Claims
open Sys2Proof.Machine

/-- Settles O53: within the capacity the load writes its words in order and nothing else, and past it it raises
Fatal only. -/
theorem programLoadCopiesWords : Obligations.ProgramLoadCopiesWords := by
  intro s off ws hs
  refine ⟨fun hin => ⟨_, load_of_le hs hin, ?copied, ?others, rfl, rfl, rfl, rfl, rfl⟩, fun hout => ?past⟩
  case copied => exact fun k hk => Memory.read_writeWords_add s.mem off hk
  case others => exact fun j hj => Memory.read_writeWords_of_not_mem s.mem hj
  case past => exact load_of_gt hs hout

/-- Settles O54: each field of the observation is the state's own, by register and by word. -/
theorem observeReadsWholeState : Obligations.ObserveReadsWholeState := fun s =>
  ⟨rfl, rfl, rfl, observe_regs_getElem? s, observe_regs_length s, observe_mem_length s,
    fun _ hk => observe_mem_getElem? hk⟩

end Sys2Proof.Claims
end

section
/-! Decoding and encoding are inverse: every well-formed instruction comes back with its operands, and every word
with all its bits (30_encoding.md R60 to R80). -/

namespace Sys2Proof

theorem decodeBranch_of_not_funct3 {w : Word} (h : isBranchFunct3 (funct3 w) = false) :
    decodeBranch w = .fatalBranchFunct3 w := by
  rcases funct3_cases (funct3 w) with h3 | h3 | h3 | h3 | h3 | h3 | h3 | h3 <;>
    simp_all [isBranchFunct3, decodeBranch]

theorem decodeLoad_of_not_funct3 {w : Word} (h : isLoadFunct3 (funct3 w) = false) :
    decodeLoad w = .fatalLoadFunct3 w := by
  rcases funct3_cases (funct3 w) with h3 | h3 | h3 | h3 | h3 | h3 | h3 | h3 <;>
    simp_all [isLoadFunct3, decodeLoad]

theorem decodeStore_of_not_funct3 {w : Word} (h : isStoreFunct3 (funct3 w) = false) :
    decodeStore w = .fatalStoreFunct3 w := by
  rcases funct3_cases (funct3 w) with h3 | h3 | h3 | h3 | h3 | h3 | h3 | h3 <;>
    simp_all [isStoreFunct3, decodeStore]

/-- A well-formed term of a FATAL row holds a word of that row (R76). -/
theorem decode_encode_of_isFatalRow {i : Instr} (hrow : Claims.isFatalRow i = true) (h : i.wellFormed = true) :
    decode (encode i) = i := by
  cases i
  case fatalJalrFunct3 w => simp_all [Instr.wellFormed, encode, decode_jalr]
  case fatalBranchFunct3 w => simp_all [Instr.wellFormed, encode, decode_branch, decodeBranch_of_not_funct3]
  case fatalLoadFunct3 w => simp_all [Instr.wellFormed, encode, decode_load, decodeLoad_of_not_funct3]
  case fatalStoreFunct3 w => simp_all [Instr.wellFormed, encode, decode_store, decodeStore_of_not_funct3]
  case fatalOpFunct7 w => simp_all [Instr.wellFormed, encode, decode_op, decodeOp, decodeAddSub]
  case fatalOpXor w => simp_all [Instr.wellFormed, encode, decode_op, decodeOp]
  case fatalMiscMem w => simp_all [Instr.wellFormed, encode, decode_miscMem]
  case fatalSystem w => simp_all [Instr.wellFormed, encode, decode_system]
  case fatalInvalidOpcode w => simp_all [Instr.wellFormed, encode, decode_invalid]
  all_goals cases hrow

/-- The fields of the encoded word select the row again and hold its operands, under each layout. -/
theorem decode_encode {i : Instr} (h : i.wellFormed = true) : decode (encode i) = i := by
  cases i
  case halt => rfl
  case lui | auipc => simp [encode, decode_lui, decode_auipc]
  case jal rd off =>
    have heven : off.getLsbD 0 = false := by simpa [Instr.wellFormed] using h
    simp [encode, decode_jal, immJ_packJ _ _ _ heven]
  case jalr => simp [encode, decode_jalr]
  case beq rs1 rs2 off | bne rs1 rs2 off | blt rs1 rs2 off | bge rs1 rs2 off | bltu rs1 rs2 off |
      bgeu rs1 rs2 off =>
    have heven : off.getLsbD 0 = false := by simpa [Instr.wellFormed] using h
    simp [encode, decode_branch, decodeBranch, immB_packB _ _ _ _ _ heven]
  case lb | lh | lw | lbu | lhu => simp [encode, decode_load, decodeLoad]
  case sb | sh | sw => simp [encode, decode_store, decodeStore]
  case addi | slti | sltiu | xori | ori | andi | slli => simp [encode, decode_opImm, decodeOpImm]
  case srli | srai => simp [encode, decode_opImm, decodeOpImm, decodeShiftRightImm]
  case srxi rd rs1 shamt f7 =>
    have hf7 : f7 ≠ 0x00#7 ∧ f7 ≠ 0x20#7 := by simpa [Instr.wellFormed] using h
    simp [encode, decode_opImm, decodeOpImm, decodeShiftRightImm, hf7]
  case add | sub => simp [encode, decode_op, decodeOp, decodeAddSub]
  case sll | slt | sltu | or | and => simp [encode, decode_op, decodeOp]
  case srl => simp [encode, decode_op, decodeOp]
  case sra rd rs1 rs2 f7 =>
    have hf7 : f7 ≠ 0x00#7 := by simpa [Instr.wellFormed] using h
    simp [encode, decode_op, decodeOp, hf7]
  all_goals exact decode_encode_of_isFatalRow rfl h

/-- The instruction i is well-formed, and w is its word. -/
def Represents (i : Instr) (w : Word) : Prop := i.wellFormed = true ∧ encode i = w

/-- Bit 0 of a branch offset has no place in the word (R68). -/
@[simp] theorem immB_getElem_zero (w : Word) : (immB w)[0] = false :=
  (BitVec.getElem_append (by decide)).trans rfl

/-- Bit 0 of a jump offset has no place in the word (R70). -/
@[simp] theorem immJ_getElem_zero (w : Word) : (immJ w)[0] = false :=
  (BitVec.getElem_append (by decide)).trans rfl

/-! What each class of the decoder answers represents the word: the fields of the class's layout are the whole
word, and funct3 and funct7 are those of the row. -/

theorem represents_decodeBranch {w : Word} (hop : opcode w = 0x63#7) : Represents (decodeBranch w) w := by
  have hfields := packB_fields w
  rw [hop] at hfields
  rcases funct3_cases (funct3 w) with h | h | h | h | h | h | h | h <;> rw [h] at hfields <;>
    simp [Represents, decodeBranch, h, Instr.wellFormed, encode, hfields, hop, isBranchFunct3]

theorem represents_decodeLoad {w : Word} (hop : opcode w = 0x03#7) : Represents (decodeLoad w) w := by
  have hfields := packI_fields w
  rw [hop] at hfields
  rcases funct3_cases (funct3 w) with h | h | h | h | h | h | h | h <;> rw [h] at hfields <;>
    simp [Represents, decodeLoad, h, Instr.wellFormed, encode, hfields, hop, isLoadFunct3]

theorem represents_decodeStore {w : Word} (hop : opcode w = 0x23#7) : Represents (decodeStore w) w := by
  have hfields := packS_fields w
  rw [hop] at hfields
  rcases funct3_cases (funct3 w) with h | h | h | h | h | h | h | h <;> rw [h] at hfields <;>
    simp [Represents, decodeStore, h, Instr.wellFormed, encode, hfields, hop, isStoreFunct3]

theorem represents_decodeShiftRightImm {w : Word} (hop : opcode w = 0x13#7) (hf3 : funct3 w = 0b101#3) :
    Represents (decodeShiftRightImm w) w := by
  have hfields := packShift_fields w
  rw [hop, hf3] at hfields
  unfold decodeShiftRightImm
  split_ifs with h0 h20
  · rw [h0] at hfields; exact ⟨rfl, hfields⟩
  · rw [h20] at hfields; exact ⟨rfl, hfields⟩
  · exact ⟨by simp [Instr.wellFormed, h0, h20], hfields⟩

theorem represents_decodeOpImm {w : Word} (hop : opcode w = 0x13#7) : Represents (decodeOpImm w) w := by
  have hfields := packI_fields w
  rw [hop] at hfields
  rcases funct3_cases (funct3 w) with h | h | h | h | h | h | h | h
  case inr.inr.inr.inr.inr.inl =>
    have hrow : decodeOpImm w = decodeShiftRightImm w := by simp [decodeOpImm, h]
    exact hrow ▸ represents_decodeShiftRightImm hop h
  all_goals
    rw [h] at hfields
    simp [Represents, decodeOpImm, h, Instr.wellFormed, encode, hfields]

theorem represents_decodeAddSub {w : Word} (hop : opcode w = 0x33#7) (hf3 : funct3 w = 0b000#3) :
    Represents (decodeAddSub w) w := by
  have hfields := packR_fields w
  rw [hop, hf3] at hfields
  unfold decodeAddSub
  split_ifs with h0 h20
  · rw [h0] at hfields; exact ⟨rfl, hfields⟩
  · rw [h20] at hfields; exact ⟨rfl, hfields⟩
  · exact ⟨by simp [Instr.wellFormed, hop, hf3, h0, h20], rfl⟩

theorem represents_decodeOp {w : Word} (hop : opcode w = 0x33#7) : Represents (decodeOp w) w := by
  have hfields := packR_fields w
  rw [hop] at hfields
  rcases funct3_cases (funct3 w) with h | h | h | h | h | h | h | h
  case inl =>
    have hrow : decodeOp w = decodeAddSub w := by simp [decodeOp, h]
    exact hrow ▸ represents_decodeAddSub hop h
  case inr.inr.inr.inr.inr.inl =>
    rw [h] at hfields
    by_cases h7 : funct7 w = 0x00#7
    · rw [h7] at hfields
      simp [Represents, decodeOp, h, h7, Instr.wellFormed, encode, hfields]
    · simp [Represents, decodeOp, h, h7, Instr.wellFormed, encode, hfields]
  all_goals
    rw [h] at hfields
    simp [Represents, decodeOp, h, Instr.wellFormed, encode, hfields, hop]

/-- Every word is represented by the instruction it decodes to. -/
theorem represents_decode (w : Word) : Represents (decode w) w := by
  by_cases hw : w = 0#32
  · subst hw; exact ⟨rfl, rfl⟩
  rcases opcode_cases w with h | h | h | h | h | h | h | h | h | h | h | ⟨hcore, hmisc, hsys⟩
  · rw [decode_lui h]; exact ⟨rfl, by rw [encode, ← h, packU_fields]⟩
  · rw [decode_auipc h]; exact ⟨rfl, by rw [encode, ← h, packU_fields]⟩
  · rw [decode_jal h]; exact ⟨by simp [Instr.wellFormed], by rw [encode, ← h, packJ_fields]⟩
  · rw [decode_jalr h]
    split_ifs with h3
    · exact ⟨rfl, by rw [encode, ← h, ← h3, packI_fields]⟩
    · exact ⟨by simp [Instr.wellFormed, h, h3], rfl⟩
  · rw [decode_branch h]; exact represents_decodeBranch h
  · rw [decode_load h]; exact represents_decodeLoad h
  · rw [decode_store h]; exact represents_decodeStore h
  · rw [decode_opImm h]; exact represents_decodeOpImm h
  · rw [decode_op h]; exact represents_decodeOp h
  · rw [decode_miscMem h]; exact ⟨by simp [Instr.wellFormed, h], rfl⟩
  · rw [decode_system h]; exact ⟨by simp [Instr.wellFormed, h], rfl⟩
  · rw [decode_invalid hw hcore hmisc hsys]
    exact ⟨by simp [Instr.wellFormed, hw, hcore, hmisc, hsys], rfl⟩

end Sys2Proof

namespace Sys2Proof.Claims
open Sys2Proof.Machine

/-- Settles O2: the encoded word's fields select the row and hold its operands. -/
theorem decodeOfEncode : Obligations.DecodeOfEncode := fun _ h => decode_encode h

/-- Settles O3: the fields of each layout are the whole word. -/
theorem encodeOfDecode : Obligations.EncodeOfDecode := fun w => (represents_decode w).2

/-- Settles O4: each test of the decoder is the condition under which its row's term is well-formed. -/
theorem decodedIsWellFormed : Obligations.DecodedIsWellFormed := fun w => (represents_decode w).1

/-- Settles O1: the decoder evaluated on each of the twelve words. -/
theorem sampleWordsDecode : Obligations.SampleWordsDecode := by
  unfold Obligations.SampleWordsDecode
  decide

end Sys2Proof.Claims
end

section
/-! The opcode table row by row: the bits of a word that a row's mask keeps are its opcode, funct3 and funct7
fields, so the rows of other opcodes never match (30_encoding.md R72, R80, R97). -/

namespace Sys2Proof
open Sys2Proof.Claims

theorem opcode_and (a b : Word) : opcode (a &&& b) = opcode a &&& opcode b := BitVec.extractLsb'_and

theorem funct3_and (a b : Word) : funct3 (a &&& b) = funct3 a &&& funct3 b := BitVec.extractLsb'_and

theorem funct7_and (a b : Word) : funct7 (a &&& b) = funct7 a &&& funct7 b := BitVec.extractLsb'_and

theorem append_and_append {a b c d e : Nat} (x x' : BitVec a) (y y' : BitVec b) (z z' : BitVec c)
    (u u' : BitVec d) (v v' : BitVec e) :
    (x ++ y ++ z ++ u ++ v) &&& (x' ++ y' ++ z' ++ u' ++ v') =
      (x &&& x') ++ (y &&& y') ++ (z &&& z') ++ (u &&& u') ++ (v &&& v') := by
  simp only [BitVec.and_append]

/-- A mask over funct7, funct3 and opcode acts on each of the three fields alone. -/
theorem and_fieldMask (w : Word) (m7 : BitVec 7) (m3 : BitVec 3) (mop : BitVec 7) :
    w &&& (m7 ++ 0#10 ++ m3 ++ 0#5 ++ mop) =
      (funct7 w &&& m7) ++ 0#10 ++ (funct3 w &&& m3) ++ 0#5 ++ (opcode w &&& mop) := by
  have hw : w = funct7 w ++ w.extractLsb' 15 10 ++ funct3 w ++ w.extractLsb' 7 5 ++ opcode w := by
    unfold funct7 funct3 opcode
    rw [extract_join w 15 7 10, extract_join w 12 17 3, extract_join w 7 20 5]
    exact ((extract_join w 0 25 7).trans (extract_whole w)).symm
  have h := append_and_append (funct7 w) m7 (w.extractLsb' 15 10) 0#10 (funct3 w) m3 (w.extractLsb' 7 5) 0#5
    (opcode w) mop
  rw [BitVec.and_zero, BitVec.and_zero] at h
  exact (congrArg (· &&& _) hw).trans h

/-! The three masks of the table's rows. -/

theorem and_opcodeMask (w : Word) : w &&& 0x0000007F#32 = 0#25 ++ opcode w := by
  have h := and_fieldMask w 0#7 0#3 (BitVec.allOnes 7)
  simp only [BitVec.and_zero, BitVec.and_allOnes] at h
  exact h

theorem and_funct3Mask (w : Word) : w &&& 0x0000707F#32 = 0#17 ++ funct3 w ++ 0#5 ++ opcode w := by
  have h := and_fieldMask w 0#7 (BitVec.allOnes 3) (BitVec.allOnes 7)
  simp only [BitVec.and_zero, BitVec.and_allOnes] at h
  exact h

theorem and_funct7Mask (w : Word) :
    w &&& 0xFE00707F#32 = funct7 w ++ 0#10 ++ funct3 w ++ 0#5 ++ opcode w := by
  have h := and_fieldMask w (BitVec.allOnes 7) (BitVec.allOnes 3) (BitVec.allOnes 7)
  simp only [BitVec.and_allOnes] at h
  exact h

/-- A row whose mask covers funct7 takes only words of its own funct7. -/
theorem and_funct7Mask_ne_of_funct7 {w p : Word} (h : funct7 w ≠ funct7 p) : w &&& 0xFE00707F#32 ≠ p := by
  have hmask : funct7 0xFE00707F#32 = BitVec.allOnes 7 := by decide
  rintro rfl
  exact h (by rw [funct7_and, hmask, BitVec.and_allOnes])

/-- A row whose mask covers funct7 takes only words of its own funct3. -/
theorem and_funct7Mask_ne_of_funct3 {w p : Word} (h : funct3 w ≠ funct3 p) : w &&& 0xFE00707F#32 ≠ p := by
  have hmask : funct3 0xFE00707F#32 = BitVec.allOnes 3 := by decide
  rintro rfl
  exact h (by rw [funct3_and, hmask, BitVec.and_allOnes])

/-- The rows a word of this opcode can take: those whose pattern has it, and the last, which takes every word. -/
def rowsOf (op : BitVec 7) : List OpcodeRow :=
  opcodeTable.filter fun r => r.mask == 0#32 || opcode r.pattern == op

/-- Every row but the last fixes all seven opcode bits. -/
theorem mask_eq_zero_or_opcode_mask :
    ∀ r ∈ opcodeTable, r.mask = 0#32 ∨ opcode r.mask = BitVec.allOnes 7 := by
  decide

/-- The first match is found among the rows of the word's opcode. -/
theorem firstMatch_eq_find?_rowsOf (w : Word) :
    firstMatch w = (rowsOf (opcode w)).find? (fun r => w &&& r.mask == r.pattern) := by
  rw [firstMatch, rowsOf, List.find?_filter]
  refine List.find?_congr fun r hr => ?_
  by_cases h : w &&& r.mask = r.pattern
  · have hrow : r.mask = 0#32 ∨ opcode r.pattern = opcode w :=
      (mask_eq_zero_or_opcode_mask r hr).imp_right fun hm => by
        rw [← h, opcode_and, hm, BitVec.and_allOnes]
    simpa [h] using hrow
  · simp [h]

/-- The table names the instruction i for the word w. -/
def Names (w : Word) (i : Instr) : Prop := (firstMatch w).map OpcodeRow.name = some i.mnemonic

/-- Under an opcode whose first row fixes the opcode alone, the table names that row. -/
theorem names_of_head?_rowsOf {w : Word} {op : BitVec 7} {i : Instr} (h : opcode w = op)
    (hrow : (rowsOf op).head? = some ⟨i.mnemonic, 0#25 ++ op, 0x0000007F#32⟩) : Names w i := by
  obtain ⟨rest, hrows⟩ := List.head?_eq_some_iff.1 hrow
  simp [Names, firstMatch_eq_find?_rowsOf, h, hrows, and_opcodeMask]

/-- The last row of the table. -/
def lastRow : OpcodeRow := ⟨"FATAL_INVALID_OPCODE", 0x00000000#32, 0x00000000#32⟩

/-! The first match under each opcode that has several rows. -/

theorem names_jalr {w : Word} (h : opcode w = 0x67#7) :
    Names w (if funct3 w = 0b000#3 then .jalr (rdField w) (rs1Field w) (immI w) else .fatalJalrFunct3 w) := by
  have hrows : rowsOf 0x67#7 = [⟨"JALR", 0x00000067#32, 0x0000707F#32⟩,
      ⟨"FATAL_JALR_FUNCT3", 0x00000067#32, 0x0000007F#32⟩, lastRow] := by decide
  rw [Names, firstMatch_eq_find?_rowsOf, h, hrows]
  rcases funct3_cases (funct3 w) with h3 | h3 | h3 | h3 | h3 | h3 | h3 | h3 <;>
    simp [and_funct3Mask, and_opcodeMask, h, h3, Instr.mnemonic]

theorem names_decodeBranch {w : Word} (h : opcode w = 0x63#7) : Names w (decodeBranch w) := by
  have hrows : rowsOf 0x63#7 = rowsBranch ++ [lastRow] := by decide
  rw [Names, firstMatch_eq_find?_rowsOf, h, hrows, rowsBranch]
  rcases funct3_cases (funct3 w) with h3 | h3 | h3 | h3 | h3 | h3 | h3 | h3 <;>
    simp [and_funct3Mask, and_opcodeMask, h, h3, decodeBranch, Instr.mnemonic]

theorem names_decodeLoad {w : Word} (h : opcode w = 0x03#7) : Names w (decodeLoad w) := by
  have hrows : rowsOf 0x03#7 = rowsLoadStore.take 6 ++ [lastRow] := by decide
  rw [Names, firstMatch_eq_find?_rowsOf, h, hrows, rowsLoadStore]
  rcases funct3_cases (funct3 w) with h3 | h3 | h3 | h3 | h3 | h3 | h3 | h3 <;>
    simp [and_funct3Mask, and_opcodeMask, h, h3, decodeLoad, Instr.mnemonic]

theorem names_decodeStore {w : Word} (h : opcode w = 0x23#7) : Names w (decodeStore w) := by
  have hrows : rowsOf 0x23#7 = rowsLoadStore.drop 6 ++ [lastRow] := by decide
  rw [Names, firstMatch_eq_find?_rowsOf, h, hrows, rowsLoadStore]
  rcases funct3_cases (funct3 w) with h3 | h3 | h3 | h3 | h3 | h3 | h3 | h3 <;>
    simp [and_funct3Mask, and_opcodeMask, h, h3, decodeStore, Instr.mnemonic]

theorem names_decodeOpImm {w : Word} (h : opcode w = 0x13#7) : Names w (decodeOpImm w) := by
  have hrows : rowsOf 0x13#7 = rowsOpImm ++ [lastRow] := by decide
  rw [Names, firstMatch_eq_find?_rowsOf, h, hrows, rowsOpImm]
  rcases funct3_cases (funct3 w) with h3 | h3 | h3 | h3 | h3 | h3 | h3 | h3
  case inr.inr.inr.inr.inr.inl =>
    have hrow : decodeOpImm w = decodeShiftRightImm w := by simp [decodeOpImm, h3]
    rw [hrow, decodeShiftRightImm]
    split_ifs with h0 h20
    · simp [and_funct3Mask, and_funct7Mask, h, h3, h0, Instr.mnemonic]
    · simp [and_funct3Mask, and_funct7Mask, h, h3, h20, Instr.mnemonic]
    · have hsrli : w &&& 0xFE00707F#32 ≠ 0x00005013#32 := and_funct7Mask_ne_of_funct7 h0
      have hsrai : w &&& 0xFE00707F#32 ≠ 0x40005013#32 := and_funct7Mask_ne_of_funct7 h20
      simp [and_funct3Mask, hsrli, hsrai, h, h3, Instr.mnemonic]
  all_goals simp [and_funct3Mask, h, h3, decodeOpImm, Instr.mnemonic]

theorem names_decodeOp {w : Word} (h : opcode w = 0x33#7) : Names w (decodeOp w) := by
  have hrows : rowsOf 0x33#7 = rowsOp ++ [lastRow] := by decide
  rw [Names, firstMatch_eq_find?_rowsOf, h, hrows, rowsOp]
  rcases funct3_cases (funct3 w) with h3 | h3 | h3 | h3 | h3 | h3 | h3 | h3
  case inl =>
    have hrow : decodeOp w = decodeAddSub w := by simp [decodeOp, h3]
    rw [hrow, decodeAddSub]
    split_ifs with h0 h20
    · simp [and_funct7Mask, h, h3, h0, Instr.mnemonic]
    · simp [and_funct7Mask, h, h3, h20, Instr.mnemonic]
    · have hadd : w &&& 0xFE00707F#32 ≠ 0x00000033#32 := and_funct7Mask_ne_of_funct7 h0
      have hsub : w &&& 0xFE00707F#32 ≠ 0x40000033#32 := and_funct7Mask_ne_of_funct7 h20
      simp [and_funct3Mask, hadd, hsub, h, h3, Instr.mnemonic]
  all_goals
    have hadd : w &&& 0xFE00707F#32 ≠ 0x00000033#32 := and_funct7Mask_ne_of_funct3 (by rw [h3]; decide)
    have hsub : w &&& 0xFE00707F#32 ≠ 0x40000033#32 := and_funct7Mask_ne_of_funct3 (by rw [h3]; decide)
  case inr.inr.inr.inr.inr.inl =>
    by_cases h0 : funct7 w = 0x00#7
    · simp [and_funct3Mask, and_funct7Mask, h, h3, h0, decodeOp, Instr.mnemonic]
    · have hsrl : w &&& 0xFE00707F#32 ≠ 0x00005033#32 := and_funct7Mask_ne_of_funct7 h0
      simp [and_funct3Mask, hadd, hsub, hsrl, h, h3, h0, decodeOp, Instr.mnemonic]
  all_goals
    have hsrl : w &&& 0xFE00707F#32 ≠ 0x00005033#32 := and_funct7Mask_ne_of_funct3 (by rw [h3]; decide)
    simp [and_funct3Mask, hadd, hsub, hsrl, h, h3, decodeOp, Instr.mnemonic]

theorem rowsOf_invalid : ∀ op, isCoreOpcode op = false → op ≠ 0x0F#7 → op ≠ 0x73#7 →
    rowsOf op = (if op = 0x00#7 then [⟨"HALT", 0x00000000#32, 0xFFFFFFFF#32⟩] else []) ++ [lastRow] := by
  decide

/-- A word that no earlier row takes is the last row's. -/
theorem names_fatalInvalidOpcode {w : Word} (hw : w ≠ 0#32) (hcore : isCoreOpcode (opcode w) = false)
    (hmisc : opcode w ≠ 0x0F#7) (hsys : opcode w ≠ 0x73#7) : Names w (.fatalInvalidOpcode w) := by
  have hhalt : w &&& 0xFFFFFFFF#32 ≠ 0#32 := fun h => hw (BitVec.and_allOnes.symm.trans h)
  rw [Names, firstMatch_eq_find?_rowsOf, rowsOf_invalid _ hcore hmisc hsys]
  split_ifs <;> simp [lastRow, hhalt, Instr.mnemonic]

/-- The table's first match names what the decoder answers, by opcode. -/
theorem names_decode (w : Word) : Names w (decode w) := by
  by_cases hw : w = 0#32
  · subst hw; unfold Names; decide
  rcases opcode_cases w with h | h | h | h | h | h | h | h | h | h | h | ⟨hcore, hmisc, hsys⟩
  · rw [decode_lui h]; exact names_of_head?_rowsOf h rfl
  · rw [decode_auipc h]; exact names_of_head?_rowsOf h rfl
  · rw [decode_jal h]; exact names_of_head?_rowsOf h rfl
  · rw [decode_jalr h]; exact names_jalr h
  · rw [decode_branch h]; exact names_decodeBranch h
  · rw [decode_load h]; exact names_decodeLoad h
  · rw [decode_store h]; exact names_decodeStore h
  · rw [decode_opImm h]; exact names_decodeOpImm h
  · rw [decode_op h]; exact names_decodeOp h
  · rw [decode_miscMem h]; exact names_of_head?_rowsOf h rfl
  · rw [decode_system h]; exact names_of_head?_rowsOf h rfl
  · rw [decode_invalid hw hcore hmisc hsys]; exact names_fatalInvalidOpcode hw hcore hmisc hsys

end Sys2Proof

namespace Sys2Proof.Claims
open Sys2Proof.Machine

/-- Settles O5: under each opcode the masks and the decoder test the same fields in the same order. -/
theorem decodeAgreesWithOpcodeTable : Obligations.DecodeAgreesWithOpcodeTable := names_decode

/-- No opcode the decoder knows ends in other bits than 11 (30_encoding.md R62, R80). -/
theorem opcode_unknown_of_lowBits :
    ∀ op : BitVec 7, op.extractLsb' 0 2 ≠ 3#2 → isCoreOpcode op = false ∧ op ≠ 0x0F#7 ∧ op ≠ 0x73#7 := by
  decide

/-- Settles O7: the two low bits are opcode bits, and without 11 the opcode is none the decoder knows. -/
theorem lowBitsAreOpcodeBits : Obligations.LowBitsAreOpcodeBits := by
  intro w hw hlow
  have hbits : (opcode w).extractLsb' 0 2 = w.extractLsb' 0 2 := BitVec.extractLsb'_extractLsb'_of_le (by decide)
  obtain ⟨hcore, hmisc, hsys⟩ := opcode_unknown_of_lowBits (opcode w) (hbits ▸ hlow)
  have hdecode := decode_invalid hw hcore hmisc hsys
  exact ⟨hdecode, fun s => ⟨_, exec_of_rowReason (by rw [hdecode]; rfl) s, rfl⟩⟩

end Sys2Proof.Claims
end

section
/-! The OP-IMM words by funct3, and the immediates as integers of the word's bits (30_encoding.md R66 to R70,
43_alu_immediate.md R128 to R139). -/

namespace Sys2Proof

/-- An append read signed: the left part is the signed one. -/
theorem toInt_append_of_pos {n m : Nat} (hn : 0 < n) (x : BitVec n) (y : BitVec m) :
    (x ++ y).toInt = x.toInt * 2 ^ m + y.toNat := by
  rw [BitVec.toInt_append, if_neg (by simpa using hn.ne'), mul_comm]

/-- The field at the top of a word, read signed, is the signed word divided, toward minus infinity. -/
theorem toInt_topField (w : Word) {s l : Nat} (h : l + s = 32) (hl : 0 < l) :
    (w.extractLsb' s l).toInt = w.toInt / 2 ^ s := by
  have hlow : ((w.extractLsb' 0 s).toNat : Int) < 2 ^ s := by exact_mod_cast (w.extractLsb' 0 s).isLt
  have hjoin := extract_join w 0 l s
  rw [Nat.zero_add] at hjoin
  have hsplit : w.toInt = (w.extractLsb' s l).toInt * 2 ^ s + (w.extractLsb' 0 s).toNat := by
    rw [← toInt_append_of_pos hl, hjoin, h, extract_whole]
  rw [hsplit, add_comm, Int.add_mul_ediv_right _ _ (by positivity), Int.ediv_eq_zero_of_lt (by positivity) hlow,
    zero_add]

theorem toInt_immI (w : Word) : (immI w).toInt = w.toInt / 2 ^ 20 := toInt_topField w rfl (by decide)

theorem toInt_immS (w : Word) : (immS w).toInt = w.toInt / 2 ^ 25 * 32 + w.toNat / 2 ^ 7 % 32 := by
  rw [immS, toInt_append_of_pos (by decide), toInt_topField w rfl (by decide), toNat_field]
  push_cast
  rfl

theorem toInt_immB (w : Word) : (immB w).toInt = w.toInt / 2 ^ 31 * 4096 + w.toNat / 2 ^ 7 % 2 * 2048 +
    w.toNat / 2 ^ 25 % 64 * 32 + w.toNat / 2 ^ 8 % 16 * 2 := by
  rw [immB, toInt_append_of_pos (by decide), toInt_append_of_pos (by decide), toInt_append_of_pos (by decide),
    toInt_append_of_pos (by decide), toInt_topField w rfl (by decide)]
  simp only [toNat_field, BitVec.toNat_ofNat]
  push_cast
  ring

theorem toInt_immJ (w : Word) : (immJ w).toInt = w.toInt / 2 ^ 31 * 1048576 + w.toNat / 2 ^ 12 % 256 * 4096 +
    w.toNat / 2 ^ 20 % 2 * 2048 + w.toNat / 2 ^ 21 % 1024 * 2 := by
  rw [immJ, toInt_append_of_pos (by decide), toInt_append_of_pos (by decide), toInt_append_of_pos (by decide),
    toInt_append_of_pos (by decide), toInt_topField w rfl (by decide)]
  simp only [toNat_field, BitVec.toNat_ofNat]
  push_cast
  ring

end Sys2Proof

namespace Sys2Proof.Machine

theorem toInt_sext12 (imm : BitVec 12) : (sext12 imm).toInt = imm.toInt :=
  BitVec.toInt_signExtend_of_le (by decide)

theorem toInt_sext13 (off : BitVec 13) : (sext13 off).toInt = off.toInt :=
  BitVec.toInt_signExtend_of_le (by decide)

theorem toInt_sext21 (off : BitVec 21) : (sext21 off).toInt = off.toInt :=
  BitVec.toInt_signExtend_of_le (by decide)

/-- The rows of OP-IMM funct3 101 are one no-op (43_alu_immediate.md R135 to R138). -/
theorem exec_decodeShiftRightImm (w : Word) (s : State) : exec (decodeShiftRightImm w) s = .next s.advance := by
  unfold decodeShiftRightImm
  split_ifs
  · exact exec_srli _ _ s _
  · exact exec_srai _ _ s _
  · exact exec_srxi _ _ s _ _

end Sys2Proof.Machine

namespace Sys2Proof.Claims
open Sys2Proof.Machine

/-- Settles O9: sign extension keeps the immediate's integer, and each immediate's integer is the signed top
field above the other fields. -/
theorem immediatesFromWordBits : Obligations.ImmediatesFromWordBits := fun w =>
  ⟨(toInt_sext12 _).trans (toInt_immI w), (toInt_sext12 _).trans (toInt_immS w),
    (toInt_sext13 _).trans (toInt_immB w), upperImm_immU w, (toInt_sext21 _).trans (toInt_immJ w)⟩

/-- Settles O8: funct3 selects a row that writes its value, or one of the shift-immediates, which only advance. -/
theorem opImmWordsAreNeverFatal : Obligations.OpImmWordsAreNeverFatal := by
  intro w s hop
  obtain ⟨haddi, hslti, hsltiu, hxori, hori, handi, -⟩ := aluImmediateResults
  obtain ⟨hslli, -⟩ := shiftImmediatesOnlyAdvance
  have hlt := isLessSigned_iff (s.readReg (rs1Field w)) (extended (immI w))
  have hltu := isLessUnsigned_iff (s.readReg (rs1Field w)) (extended (immI w))
  rcases funct3_cases (funct3 w) with h | h | h | h | h | h | h | h
  · rw [haddi w hop h, h]
    exact gives_wroteAndNext (exec_addi _ _ _ s)
  · rw [hslli w hop h, h]
    exact gives_pcOnly_advance (exec_slli _ _ _ s)
  · rw [hslti w hop h, h]
    exact gives_wroteAndNext ((exec_slti _ _ _ s).trans (by rw [sext12_eq_extended, boolWord_eq_bit hlt]))
  · rw [hsltiu w hop h, h]
    exact gives_wroteAndNext ((exec_sltiu _ _ _ s).trans (by rw [sext12_eq_extended, boolWord_eq_bit hltu]))
  · rw [hxori w hop h, h]
    exact gives_wroteAndNext (exec_xori _ _ _ s)
  · have hrow : decodeOpImm w = decodeShiftRightImm w := by simp [decodeOpImm, h]
    rw [decode_opImm hop, hrow, h]
    exact gives_pcOnly_advance (exec_decodeShiftRightImm w s)
  · rw [hori w hop h, h]
    exact gives_wroteAndNext (exec_ori _ _ _ s)
  · rw [handi w hop h, h]
    exact gives_wroteAndNext (exec_andi _ _ _ s)

end Sys2Proof.Claims
end

section
/-! The data index under each policy, an access without one, and a load or a fetch after a store (20_memory.md R41,
R44 to R47, R53, R56). -/

namespace Sys2Proof.Machine

/-- An address with bit 31 set, read signed, is 2^32 less than read unsigned (R45). -/
theorem toInt_of_getLsbD_31 {ea : Word} (h : ea.getLsbD 31 = true) : ea.toInt = ea.toNat - 2 ^ 32 := by
  rw [BitVec.toInt_eq_msb_cond, BitVec.msb_eq_getLsbD_last, if_pos h]
  rfl

/-- Under SignExtMod64 the index is the 64-bit sum, as an integer, mod MEM_WORDS. -/
theorem signExtIndex_eq_emod (ea : Word) (n : Nat) :
    (((2 ^ 64 + ea.toInt).toNat % n : Nat) : Int) = (2 ^ 64 + ea.toInt) % n := by
  have hge : -2 ^ 31 ≤ ea.toInt := BitVec.le_toInt ea
  rw [Int.natCast_mod, Int.toNat_of_nonneg (by omega)]

/-- The two wraps agree where 2^32 and 2^64 leave the same remainder (R45). -/
theorem signExtIndex_eq_mod {ea : Word} {n : Nat} (h : ea.getLsbD 31 = true) (hn : 2 ^ 32 % n = 2 ^ 64 % n) :
    (2 ^ 64 + ea.toInt).toNat % n = ea.toNat % n := by
  have hsum : (2 ^ 64 + ea.toInt).toNat + 2 ^ 32 = ea.toNat + 2 ^ 64 := by
    rw [toInt_of_getLsbD_31 h]; omega
  have hmod : (2 ^ 64 + ea.toInt).toNat + 2 ^ 32 ≡ ea.toNat + 2 ^ 32 [MOD n] := by
    rw [hsum]
    exact Nat.ModEq.add_left _ (Eq.symm hn)
  exact Nat.ModEq.add_right_cancel' _ hmod

/-- A load without a data index raises Fatal (R45, 42_load_store.md R116). -/
theorem loadReg_of_dataIndex_eq_none {s : State} {rs1 : RegIdx} {off : BitVec 12}
    (h : dataIndex s.params (s.effectiveAddress rs1 off) = none) (rd : RegIdx) (n : Width)
    (ext : BitVec n.bits → Word) : s.loadReg rd rs1 off n ext = s.raiseFatal .dataAddressNegative := by
  simp only [State.loadReg, h]

/-- A store without a data index raises Fatal (R45, 42_load_store.md R123). -/
theorem storeReg_of_dataIndex_eq_none {s : State} {rs1 : RegIdx} {off : BitVec 12}
    (h : dataIndex s.params (s.effectiveAddress rs1 off) = none) (rs2 : RegIdx) (n : Width) :
    s.storeReg rs1 rs2 off n = s.raiseFatal .dataAddressNegative := by
  simp only [State.storeReg, h]

end Sys2Proof.Machine

namespace Sys2Proof.Claims
open Sys2Proof.Machine

/-- Settles O15: bit 31 and the policy select the branch of dataIndex, and each index is a remainder mod
MEM_WORDS. -/
theorem dataIndexFollowsPolicy : Obligations.DataIndexFollowsPolicy := by
  intro p ea hp
  refine ⟨fun hpos => dataIndex_nonneg hpos, fun hneg => ⟨?fatal, ?unsigned, ?signed, ?agree⟩,
    fun k hk => dataIndex_lt hp hk⟩
  case fatal => exact fun hpol => dataIndex_eq_none_iff.2 ⟨hneg, hpol⟩
  case unsigned => intro hpol; rw [dataIndex_neg hneg, hpol]
  case signed =>
    intro hpol
    rw [dataIndex_neg hneg, hpol]
    exact ⟨_, rfl, signExtIndex_eq_emod ea p.memWords⟩
  case agree =>
    intro hpol hn
    rw [dataIndex_neg hneg, hpol]
    exact congrArg some (signExtIndex_eq_mod hneg hn)

/-- Settles O18: such an address has no data index, and each of the eight forms then raises Fatal. -/
theorem negativeAddressIsFatal : Obligations.NegativeAddressIsFatal := by
  intro rd rs1 rs2 off s hneg hpol i hi
  have hidx : dataIndex s.params (s.effectiveAddress rs1 off) = none := by
    rw [← indexOf_eq_dataIndex]
    exact dataIndex_eq_none_iff.2 ⟨hneg, hpol⟩
  have hload := loadReg_of_dataIndex_eq_none hidx rd
  have hstore := storeReg_of_dataIndex_eq_none hidx rs2
  refine ⟨s.raiseFatal .dataAddressNegative, ?_, rfl⟩
  simp only [List.mem_cons, List.not_mem_nil, or_false] at hi
  rcases hi with rfl | rfl | rfl | rfl | rfl | rfl | rfl | rfl
  · rw [exec_lb, hload]
  · rw [exec_lh, hload]
  · rw [exec_lw, hload]
  · rw [exec_lbu, hload]
  · rw [exec_lhu, hload]
  · rw [exec_sb, hstore]
  · rw [exec_sh, hstore]
  · rw [exec_sw, hstore]

/-- A store that completes leaves its merged word at the data index, and has the frame of a store. -/
theorem stored_of_mem_storesOver {s t : State} {rs1 rs2 : RegIdx} {off : BitVec 12} {idx : Nat}
    (hidx : indexOf s rs1 off = some idx) {p : Instr × Word} (hp : p ∈ storesOver s rs1 rs2 off (s.mem.read idx))
    (hexec : exec p.1 s = .next t) : Stored s idx p.2 t := by
  obtain ⟨-, -, -, hstores⟩ := storesMergeIntoIndexedWord
  obtain ⟨u, hu, hstored⟩ := hstores rs1 rs2 off s idx hidx p hp
  rw [hexec] at hu
  cases hu
  exact hstored

/-- Settles O19: a load gives the word that memory holds at its index, and after the store that is the merged word
at the stored index and the old word at any other. -/
theorem loadSeesLatestStore : Obligations.LoadSeesLatestStore := by
  intro s t rs1 rs2 off idx hidx p hp hexec rd base o j hj
  obtain ⟨hmem, -⟩ := stored_of_mem_storesOver hidx hp hexec
  obtain ⟨-, -, -, -, -, hloads⟩ := loadsReadIndexedWord
  rw [← hmem j]
  exact hloads rd base o t j hj

/-- Settles O20: a fetch reads memory at u(pc) div 4, and the store changes that read at its index alone. -/
theorem storeChangesFetchedWord : Obligations.StoreChangesFetchedWord := by
  intro s t rs1 rs2 off idx hidx p hp hexec pc
  obtain ⟨hmem, -, -, -, -, hparams⟩ := stored_of_mem_storesOver hidx hp hexec
  simp only [State.fetch, State.fetchIndex, hparams, hmem]
  by_cases hin : pc.toNat / 4 < s.params.memWords
  · by_cases hat : pc.toNat / 4 = idx
    · subst hat; simp [hin]
    · simp [hin, hat]
  · have hout : ¬ (pc.toNat / 4 = idx ∧ idx < s.params.memWords) := by rintro ⟨rfl, h⟩; exact hin h
    simp [hin, hout]

/-- Settles O27: each FATAL row has its reason, and its execution raises that reason only. -/
theorem fatalRowsEnterFatal : Obligations.FatalRowsEnterFatal := by
  intro w s
  have hrow : ∀ {i r}, rowReason i = some r → Gives i s (EntersFatal r s) := fun h =>
    ⟨_, exec_of_rowReason h s, rfl⟩
  refine ⟨fun i hi => hrow ?funct3, hrow rfl, fun i hi => hrow ?opcode⟩
  case funct3 =>
    simp only [List.mem_cons, List.not_mem_nil, or_false] at hi
    rcases hi with rfl | rfl | rfl | rfl | rfl <;> rfl
  case opcode =>
    simp only [List.mem_cons, List.not_mem_nil, or_false] at hi
    rcases hi with rfl | rfl | rfl <;> rfl

end Sys2Proof.Claims
end

section
/-! What every step keeps: the legal state, the parameters, an even pc; and what it counts (10_state.md R21, R26, R27,
20_memory.md R58, 70_reset_and_hazards.md R180 to R184). -/

namespace Sys2Proof.Machine

section
variable {i : Instr} {s t : State}

/-- No instruction changes the parameters (20_memory.md R58). -/
theorem Effect.params_eq (h : Effect i s t) : t.params = s.params := by
  cases h <;> simp

/-- No instruction counts; the step does (10_state.md R27). -/
theorem Effect.cycles_eq (h : Effect i s t) : t.cycles = s.cycles := by
  cases h <;> simp

/-- No instruction writes the entry of x0 (R22). -/
theorem Effect.entry_zero_eq (h : Effect i s t) : t.regs[0] = s.regs[0] := by
  cases h <;> simp

/-- An instruction leaves memory as it is or writes one word of it (20_memory.md R53). -/
theorem Effect.mem_eq_or_write (h : Effect i s t) :
    t.mem = s.mem ∨ ∃ ea idx v, dataIndex s.params ea = some idx ∧ t.mem = s.mem.write idx v := by
  cases h
  case store hidx => exact .inr ⟨_, _, _, hidx, rfl⟩
  all_goals exact .inl (by simp)

/-- The index written is one of an effective address, so an existing word (20_memory.md R44, R48). -/
theorem Effect.inv (h : Effect i s t) (hs : s.Inv) : t.Inv := by
  obtain ⟨hcap, hwf, hin, hzero⟩ := hs
  unfold State.Inv
  rw [h.params_eq, h.entry_zero_eq]
  rcases h.mem_eq_or_write with hmem | ⟨ea, idx, v, hidx, hmem⟩ <;> rw [hmem]
  · exact ⟨hcap, hwf, hin, hzero⟩
  · exact ⟨hcap, Memory.write_wf idx v hwf, Memory.write_within v hin (dataIndex_lt hcap hidx), hzero⟩

end

/-- The words of INIT_MEM past the capacity are dropped (10_state.md R35). -/
theorem inv_construct (p : Params) (r : ResetParams) (hp : 1 ≤ p.memWords) : (State.construct p r).Inv := by
  have hnil : Memory.wf [] ∧ Memory.within [] p.memWords := ⟨⟨.nil, by simp⟩, by simp⟩
  have hlen : 0 + (r.initMem.take p.memWords).length ≤ p.memWords := by simp
  refine ⟨hp, Memory.writeWords_wf 0 _ hnil.1, Memory.writeWords_within 0 _ hnil.2 hlen, ?_⟩
  simp [State.construct]

/-- A load that would pass the capacity writes nothing (70_reset_and_hazards.md R182). -/
theorem inv_load {s t : State} {off : Nat} {ws : List Word} (hs : s.Inv) (h : s.load off ws = .next t) : t.Inv := by
  obtain ⟨-, ⟨-, rfl⟩ | ⟨hin, rfl⟩⟩ := load_cases h
  · exact hs
  · obtain ⟨hcap, hwf, hwithin, hzero⟩ := hs
    exact ⟨hcap, Memory.writeWords_wf off ws hwf, Memory.writeWords_within off ws hwithin hin, hzero⟩

/-! Parity of a word. -/

theorem mod_two_eq_zero_iff {n : Nat} (x : BitVec n) : x.toNat % 2 = 0 ↔ x.getLsbD 0 = false := by
  rw [BitVec.getLsbD, Nat.testBit_zero]
  simp

theorem add_mod_two_eq_zero {a b : Word} (ha : a.toNat % 2 = 0) (hb : b.toNat % 2 = 0) : (a + b).toNat % 2 = 0 := by
  rw [BitVec.toNat_add]
  omega

theorem nextPc_mod_two {s : State} (h : s.pc.toNat % 2 = 0) : s.nextPc.toNat % 2 = 0 :=
  add_mod_two_eq_zero h rfl

theorem clearBit0_mod_two (t : Word) : (clearBit0 t).toNat % 2 = 0 :=
  (mod_two_eq_zero_iff _).2 (getLsbD_clearBit0 t 0)

theorem sext13_mod_two {off : BitVec 13} (h : off.getLsbD 0 = false) : (sext13 off).toNat % 2 = 0 := by
  rw [mod_two_eq_zero_iff, sext13, BitVec.getLsbD_signExtend]
  simpa using h

/-- The branch offset of a well-formed instruction is even (R104). -/
theorem Effect.pc_mod_two {i : Instr} {s t : State} (h : Effect i s t) (hi : i.wellFormed = true)
    (hpc : s.pc.toNat % 2 = 0) : t.pc.toNat % 2 = 0 := by
  cases h
  case fatal | halt => exact hpc
  case advance => exact nextPc_mod_two hpc
  case result => rw [writeAndAdvance_pc]; exact nextPc_mod_two hpc
  case shiftRight =>
    rw [writeShiftRight_pc]
    split
    · exact nextPc_mod_two hpc
    · exact hpc
  case jump => rw [linkAndJump_pc]; exact clearBit0_mod_two _
  case branch c rs1 rs2 off hform =>
    have heven : off.getLsbD 0 = false := by
      rcases hform with rfl | rfl | rfl | rfl | rfl | rfl <;> simpa [Instr.wellFormed] using hi
    rw [branch_pc]
    split
    · exact add_mod_two_eq_zero hpc (sext13_mod_two heven)
    · exact nextPc_mod_two hpc
  case store => exact nextPc_mod_two hpc

/-- A step from a status other than Fatal has a next state. -/
theorem step_next {s : State} (hs : ∀ r, s.status ≠ .fatal r) : ∃ t, step s = .next t := by
  rw [step_eq_fetchAndExecute hs]
  cases hf : s.fetch with
  | none => exact ⟨_, fetchAndExecute_of_fetch_eq_none hf⟩
  | some w => rw [fetchAndExecute_of_fetch_eq_some hf]; exact exec_next _ _

/-- A load in a status other than Fatal has a next state. -/
theorem load_next {s : State} (off : Nat) (ws : List Word) (hs : ∀ r, s.status ≠ .fatal r) :
    ∃ t, s.load off ws = .next t := by
  rw [load_eq_ite off ws hs]
  split <;> exact ⟨_, rfl⟩

theorem load_of_status_eq_fatal {s : State} {r : FatalReason} (h : s.status = .fatal r) (off : Nat)
    (ws : List Word) : s.load off ws = .fault (.terminated r) := by
  simp only [State.load, h]

end Sys2Proof.Machine

namespace Sys2Proof.Claims
open Sys2Proof.Machine

/-- Settles O39: the fetch and the count touch nothing Inv speaks of, and each effect of exec keeps it. -/
theorem stepKeepsInv : Obligations.StepKeepsInv := by
  intro s t hs hstep
  obtain ⟨-, ⟨-, rfl⟩ | ⟨w, -, hexec⟩⟩ := step_cases hstep
  · exact hs
  · have hbegin : s.beginExecute.Inv := hs
    exact (exec_effect hexec).inv hbegin

/-- Settles O41: construction writes an empty memory within the capacity, and a load a legal one. -/
theorem hostOperationsKeepInv : Obligations.HostOperationsKeepInv :=
  ⟨inv_construct, fun _ _ _ _ => inv_load⟩

/-- Settles O40: reset is a construction with a capacity of at least 1. -/
theorem resetHasInv : Obligations.ResetHasInv := inv_construct defaultParams defaultResetParams (by decide)

/-- Settles O43: the decoded instruction is well-formed, so its branch offset is even, and so is every other way to
a new pc. -/
theorem evenPcStaysEven : Obligations.EvenPcStaysEven := by
  intro s t hpc hstep
  obtain ⟨-, ⟨-, rfl⟩ | ⟨w, -, hexec⟩⟩ := step_cases hstep
  · exact hpc
  · exact (exec_effect hexec).pc_mod_two (decodedIsWellFormed w) hpc

/-- Settles O44: neither an effect of exec nor a load writes the parameters. -/
theorem capacityNeverChanges : Obligations.CapacityNeverChanges := by
  refine ⟨fun s t hstep => ?_, fun s t off ws hload => ?_⟩
  · obtain ⟨-, ⟨-, rfl⟩ | ⟨w, -, hexec⟩⟩ := step_cases hstep
    · rfl
    · exact (exec_effect hexec).params_eq
  · obtain ⟨-, ⟨-, rfl⟩ | ⟨-, rfl⟩⟩ := load_cases hload <;> rfl

/-- Settles O35: the count is made once the fetch has succeeded, and no instruction changes it. -/
theorem cyclesCountFetches : Obligations.CyclesCountFetches := by
  intro s t hstep
  obtain ⟨-, ⟨hnone, rfl⟩ | ⟨w, hfetch, hexec⟩⟩ := step_cases hstep
  · rw [if_neg (fetch_eq_none_iff.1 hnone).not_gt]; rfl
  · obtain ⟨hin, -⟩ := fetch_eq_some_iff.1 hfetch
    rw [if_pos hin, (exec_effect hexec).cycles_eq, beginExecute_cycles]

/-- Settles O32: outside Fatal the fetch, exec and the load always answer, and in Fatal the step and the load answer
the fault. -/
theorem stepExistsUnlessFatal : Obligations.StepExistsUnlessFatal := by
  refine ⟨fun s => ⟨fun ⟨t, ht⟩ => (step_cases ht).1, step_next⟩, fun s f hf => ?_,
    fun s r off ws hs => load_of_status_eq_fatal hs off ws⟩
  by_cases hs : NotFatal s
  · obtain ⟨t, ht⟩ := step_next hs
    rw [ht] at hf
    cases hf
  · simp only [NotFatal, not_forall, not_not] at hs
    obtain ⟨r, hr⟩ := hs
    rw [step_of_status_eq_fatal hr] at hf
    cases hf

end Sys2Proof.Claims
end

section
/-! What an instruction writes and what it depends on: its destination, its pc by class, and neither the cycle
counter nor, outside branches and accesses, the registers (10_state.md R22 to R27, 20_memory.md R53,
41_control_transfer.md R106, R115). -/

namespace Sys2Proof.Machine

/-- With a word to fetch, the step is exec of the decoded word. -/
theorem exec_of_step {s t : State} {w : Word} (hfetch : s.fetch = some w) (h : step s = .next t) :
    exec (decode w) s.beginExecute = .next t := by
  obtain ⟨-, ⟨hnone, -⟩ | ⟨v, hv, hexec⟩⟩ := step_cases h
  · rw [hfetch] at hnone; cases hnone
  · rw [hfetch] at hv; cases hv; exact hexec

/-- Only a store writes memory (20_memory.md R53). -/
theorem Effect.mem_eq_or_isStore {i : Instr} {s t : State} (h : Effect i s t) :
    t.mem = s.mem ∨ ∃ rs1 rs2 off, i = .sb rs1 rs2 off ∨ i = .sh rs1 rs2 off ∨ i = .sw rs1 rs2 off := by
  cases h
  case store hform _ => exact .inr ⟨_, _, _, hform⟩
  all_goals exact .inl (by simp)

@[simp] theorem storeReg_regs (s : State) (rs1 rs2 : RegIdx) (off : BitVec 12) (n : Width) :
    (s.storeReg rs1 rs2 off n).regs = s.regs := by
  rcases storeReg_cases s rs1 rs2 off n with ⟨-, h⟩ | ⟨idx, -, h⟩ <;> rw [h] <;> rfl

/-! The state with its cycle counter k higher, and each operation on it (10_state.md R27). -/

/-- The state s, k cycles later and otherwise the same. -/
def State.addCycles (s : State) (k : Nat) : State := { s with cycles := s.cycles + k }

section
variable (s : State) (k : Nat)

@[simp] theorem addCycles_params : (s.addCycles k).params = s.params := rfl

@[simp] theorem addCycles_raiseFatal (r : FatalReason) :
    (s.addCycles k).raiseFatal r = (s.raiseFatal r).addCycles k := rfl

@[simp] theorem addCycles_advance : (s.addCycles k).advance = s.advance.addCycles k := rfl

@[simp] theorem addCycles_setPc (t : Word) : (s.addCycles k).setPc t = (s.setPc t).addCycles k := rfl

@[simp] theorem addCycles_writeReg (r : RegIdx) (v : Word) :
    (s.addCycles k).writeReg r v = (s.writeReg r v).addCycles k := by
  unfold State.writeReg
  split <;> rfl

@[simp] theorem addCycles_writeAndAdvance (r : RegIdx) (v : Word) :
    (s.addCycles k).writeAndAdvance r v = (s.writeAndAdvance r v).addCycles k := by
  simp [State.writeAndAdvance]

@[simp] theorem addCycles_writeShiftRight (r : RegIdx) (v : Word) :
    (s.addCycles k).writeShiftRight r v = (s.writeShiftRight r v).addCycles k := by
  unfold State.writeShiftRight
  simp only [addCycles_params, addCycles_writeAndAdvance, addCycles_writeReg]
  split <;> rfl

@[simp] theorem addCycles_linkAndJump (r : RegIdx) (t : Word) :
    (s.addCycles k).linkAndJump r t = (s.linkAndJump r t).addCycles k := by
  unfold State.linkAndJump
  rw [addCycles_writeReg, addCycles_setPc]
  rfl

@[simp] theorem addCycles_loadReg (rd rs1 : RegIdx) (off : BitVec 12) (n : Width) (ext : BitVec n.bits → Word) :
    (s.addCycles k).loadReg rd rs1 off n ext = (s.loadReg rd rs1 off n ext).addCycles k := by
  rcases loadReg_cases s rd rs1 off n ext with ⟨hidx, h⟩ | ⟨idx, hidx, h⟩
  · rw [h, loadReg_of_dataIndex_eq_none (s := s.addCycles k) hidx, addCycles_raiseFatal]
  · rw [h, loadReg_of_dataIndex (s := s.addCycles k) hidx]
    exact addCycles_writeAndAdvance s k rd _

@[simp] theorem addCycles_storeReg (rs1 rs2 : RegIdx) (off : BitVec 12) (n : Width) :
    (s.addCycles k).storeReg rs1 rs2 off n = (s.storeReg rs1 rs2 off n).addCycles k := by
  rcases storeReg_cases s rs1 rs2 off n with ⟨hidx, h⟩ | ⟨idx, hidx, h⟩
  · rw [h, storeReg_of_dataIndex_eq_none (s := s.addCycles k) hidx, addCycles_raiseFatal]
  · rw [h, storeReg_of_dataIndex (s := s.addCycles k) hidx]
    rfl

end

/-- An instruction run k cycles later gives the same state, k cycles later. -/
theorem exec_addCycles {i : Instr} {s t : State} (h : exec i s = .next t) (k : Nat) :
    exec i (s.addCycles k) = .next (t.addCycles k) := by
  cases i
  case lb | lh | lw | lbu | lhu => cases h; exact congrArg _ (addCycles_loadReg s k _ _ _ _ _)
  case sb | sh | sw => cases h; exact congrArg _ (addCycles_storeReg s k _ _ _ _)
  case jal | jalr => cases h; exact congrArg _ (addCycles_linkAndJump s k _ _)
  case srl | sra => cases h; exact congrArg _ (addCycles_writeShiftRight s k _ _)
  case lui | auipc | addi | slti | sltiu | xori | ori | andi | add | sub | sll | slt | sltu | or | and =>
    cases h; exact congrArg _ (addCycles_writeAndAdvance s k _ _)
  all_goals cases h; rfl

end Sys2Proof.Machine

namespace Sys2Proof.Claims
open Sys2Proof.Machine

/-! The destination register (10_state.md R23). -/

/-- The registers of t are those of s, or with one write to rd. -/
def WritesOnly (o : Option RegIdx) (s t : State) : Prop :=
  t.regs = s.regs ∨ ∃ rd v, o = some rd ∧ t.regs = (s.writeReg rd v).regs

theorem writesOnly_writeShiftRight (s : State) (rd : RegIdx) (v : Word) :
    WritesOnly (some rd) s (s.writeShiftRight rd v) := by
  refine .inr ⟨rd, v, rfl, ?_⟩
  unfold State.writeShiftRight
  split <;> rfl

theorem writesOnly_loadReg (s : State) (rd rs1 : RegIdx) (off : BitVec 12) (n : Width)
    (ext : BitVec n.bits → Word) : WritesOnly (some rd) s (s.loadReg rd rs1 off n ext) := by
  rcases loadReg_cases s rd rs1 off n ext with ⟨-, h⟩ | ⟨idx, -, h⟩ <;> rw [h]
  · exact .inl rfl
  · exact .inr ⟨rd, _, rfl, rfl⟩

/-- exec writes no register entry but the destination's. -/
theorem writesOnly_exec {i : Instr} {s t : State} (h : exec i s = .next t) : WritesOnly (destination i) s t := by
  cases i
  case lb | lh | lw | lbu | lhu => cases h; exact writesOnly_loadReg s _ _ _ _ _
  case sb | sh | sw => cases h; exact .inl (storeReg_regs s _ _ _ _)
  case srl | sra => cases h; exact writesOnly_writeShiftRight s _ _
  case lui | auipc | jal | jalr | addi | slti | sltiu | xori | ori | andi | add | sub | sll | slt | sltu | or |
      and =>
    cases h; exact .inr ⟨_, _, rfl, rfl⟩
  all_goals cases h; exact .inl rfl

/-- Settles O47: the one write, if any, is to the destination. -/
theorem onlyDestinationIsWritten : Obligations.OnlyDestinationIsWritten := by
  intro i s t hexec r hr
  rcases writesOnly_exec hexec with hregs | ⟨rd, v, hrd, hregs⟩
  · exact readReg_congr hregs r
  · have hne : r ≠ rd := by rintro rfl; exact hr hrd
    rw [readReg_congr hregs r, readReg_writeReg, if_neg fun ⟨_, h⟩ => hne h]

/-- STORE and BRANCH words have no destination (R23). -/
theorem destination_decode_eq_none {w : Word} (h : opcode w = 0x23#7 ∨ opcode w = 0x63#7) :
    destination (decode w) = none := by
  rcases h with h | h
  · rw [decode_store h]; unfold decodeStore; split_ifs <;> rfl
  · rw [decode_branch h]; unfold decodeBranch; split_ifs <;> rfl

/-- The opcode of a word is that of the row it decodes to (30_encoding.md R62). -/
theorem opcode_of_decode_eq {w : Word} {i : Instr} {op : BitVec 7} (hi : decode w = i)
    (hrow : Laws.EncodeOpcode.Statement i) (hop : Laws.EncodeOpcode.rowOpcode i = some op) : opcode w = op := by
  subst hi
  have hencoded := hrow (decodedIsWellFormed w)
  rw [hop, encodeOfDecode] at hencoded
  exact hencoded

/-- Settles O45: only an effect of SB, SH or SW writes memory, and their words are STORE words; STORE and BRANCH
words have no destination. -/
theorem onlyStoresWriteMemory : Obligations.OnlyStoresWriteMemory := by
  intro s t w hfetch hstep
  have hexec := exec_of_step hfetch hstep
  refine ⟨fun hop => ?mem, fun hop => ?regs⟩
  case mem =>
    rcases (exec_effect hexec).mem_eq_or_isStore with hmem | ⟨rs1, rs2, off, hi | hi | hi⟩
    · exact hmem
    · exact absurd (opcode_of_decode_eq hi (Laws.EncodeOpcode.sb rs1 rs2 off) rfl) hop
    · exact absurd (opcode_of_decode_eq hi (Laws.EncodeOpcode.sh rs1 rs2 off) rfl) hop
    · exact absurd (opcode_of_decode_eq hi (Laws.EncodeOpcode.sw rs1 rs2 off) rfl) hop
  case regs =>
    rcases writesOnly_exec hexec with hregs | ⟨rd, v, hrd, -⟩
    · exact hregs
    · rw [destination_decode_eq_none hop] at hrd; cases hrd

/-! The pc of each class (10_state.md R25). -/

theorem loadReg_pc_of_addressFatal {s : State} {rs1 : RegIdx} {off : BitVec 12} (h : addressFatal s rs1 off = none)
    (rd : RegIdx) (n : Width) (ext : BitVec n.bits → Word) : (s.loadReg rd rs1 off n ext).pc = s.pc + 4#32 := by
  rcases loadReg_cases s rd rs1 off n ext with ⟨hidx, -⟩ | ⟨idx, -, hload⟩
  · rw [addressFatal_eq, if_pos hidx] at h; cases h
  · rw [hload, writeAndAdvance_pc]; rfl

theorem storeReg_pc_of_addressFatal {s : State} {rs1 : RegIdx} {off : BitVec 12} (h : addressFatal s rs1 off = none)
    (rs2 : RegIdx) (n : Width) : (s.storeReg rs1 rs2 off n).pc = s.pc + 4#32 := by
  rcases storeReg_cases s rs1 rs2 off n with ⟨hidx, -⟩ | ⟨idx, -, hstore⟩
  · rw [addressFatal_eq, if_pos hidx] at h; cases h
  · rw [hstore]; rfl

/-! The comparison of each branch, as the condition it is taken on (R108 to R113). -/

section
variable (s : State) (rs1 rs2 : RegIdx) (off : BitVec 13)

theorem taken_beq : taken s (.beq rs1 rs2 off) = isEqual (s.readReg rs1) (s.readReg rs2) := rfl

theorem taken_bne : taken s (.bne rs1 rs2 off) = !isEqual (s.readReg rs1) (s.readReg rs2) :=
  decide_not

theorem taken_blt : taken s (.blt rs1 rs2 off) = isLessSigned (s.readReg rs1) (s.readReg rs2) := rfl

theorem taken_bge : taken s (.bge rs1 rs2 off) = !isLessSigned (s.readReg rs1) (s.readReg rs2) :=
  (decide_eq_decide.2 Int.not_lt.symm).trans decide_not

theorem taken_bltu : taken s (.bltu rs1 rs2 off) = isLessUnsigned (s.readReg rs1) (s.readReg rs2) := rfl

theorem taken_bgeu : taken s (.bgeu rs1 rs2 off) = !isLessUnsigned (s.readReg rs1) (s.readReg rs2) :=
  (decide_eq_decide.2 Nat.not_lt.symm).trans decide_not

end

/-- A branch on the condition c goes to its offset where c holds, and on to pc + 4 where it does not (R107). -/
theorem branch_pc_of_taken (s : State) {b c : Bool} (hb : b = c) (off : BitVec 13) :
    (s.branch c (sext13 off)).pc = if b then s.pc + extended off else s.pc + 4#32 := by
  rw [hb]; rfl

/-- An instruction without a fatal outcome goes to the pc of its class. -/
theorem pc_of_exec {i : Instr} {s t : State} (h : exec i s = .next t) (hf : fatalOutcome s i = none) :
    t.pc = newPc s i := by
  cases i
  case lb | lh | lw | lbu | lhu => cases h; exact loadReg_pc_of_addressFatal hf _ _ _
  case sb | sh | sw => cases h; exact storeReg_pc_of_addressFatal hf _ _
  case fatalJalrFunct3 | fatalBranchFunct3 | fatalLoadFunct3 | fatalStoreFunct3 | fatalOpXor | fatalOpFunct7 |
      fatalMiscMem | fatalSystem | fatalInvalidOpcode => cases hf
  case beq => cases h; exact branch_pc_of_taken s (taken_beq s _ _ _) _
  case bne => cases h; exact branch_pc_of_taken s (taken_bne s _ _ _) _
  case blt => cases h; exact branch_pc_of_taken s (taken_blt s _ _ _) _
  case bge => cases h; exact branch_pc_of_taken s (taken_bge s _ _ _) _
  case bltu => cases h; exact branch_pc_of_taken s (taken_bltu s _ _ _) _
  case bgeu => cases h; exact branch_pc_of_taken s (taken_bgeu s _ _ _) _
  case jal | jalr => cases h; exact linkAndJump_pc s _ _
  case srl | sra => cases h; exact writeShiftRight_pc s _ _
  case halt | slli | srli | srai | srxi => cases h; rfl
  all_goals cases h; exact writeAndAdvance_pc s _ _

/-- Settles O46: exec raises the fatal outcome and nothing else, or goes to the pc of the class. -/
theorem pcFollowsInstructionClass : Obligations.PcFollowsInstructionClass := by
  intro i s
  obtain ⟨t, ht⟩ := exec_next i s
  refine ⟨t, ht, ?_⟩
  rcases hasOutcome_exec ht with ⟨r, hr, rfl⟩ | ⟨hnone, -⟩
  · simp only [hr]; rfl
  · simp only [hnone]; exact pc_of_exec ht hnone

/-- Outside BRANCH the next pc is one of the pc and the parameters. -/
theorem newPc_decode_congr {s t : State} {w : Word} (hop : opcode w ≠ 0x63#7) (hpc : t.pc = s.pc)
    (hparams : t.params = s.params) : newPc t (decode w) = newPc s (decode w) := by
  cases hi : decode w
  case beq => exact absurd (opcode_of_decode_eq hi (Laws.EncodeOpcode.beq _ _ _) rfl) hop
  case bne => exact absurd (opcode_of_decode_eq hi (Laws.EncodeOpcode.bne _ _ _) rfl) hop
  case blt => exact absurd (opcode_of_decode_eq hi (Laws.EncodeOpcode.blt _ _ _) rfl) hop
  case bge => exact absurd (opcode_of_decode_eq hi (Laws.EncodeOpcode.bge _ _ _) rfl) hop
  case bltu => exact absurd (opcode_of_decode_eq hi (Laws.EncodeOpcode.bltu _ _ _) rfl) hop
  case bgeu => exact absurd (opcode_of_decode_eq hi (Laws.EncodeOpcode.bgeu _ _ _) rfl) hop
  case jal rd off => exact congrArg (fun pc => (pc + extended off) &&& 0xFFFFFFFE#32) hpc
  case jalr rd rs1 off => exact congrArg (fun pc => (pc + extended off) &&& 0xFFFFFFFE#32) hpc
  case srl | sra =>
    exact congrArg₂ (fun (p : Params) pc => if p.srxAdvancesPc then pc + 4#32 else pc) hparams hpc
  case halt => exact hpc
  all_goals exact congrArg (· + 4#32) hpc

/-- The pc and status an instruction leaves depend on its state through the fatal outcome, newPc, pc and status. -/
theorem pc_status_congr {i : Instr} {s t s' t' : State} (h : exec i s = .next t) (h' : exec i s' = .next t')
    (hfatal : fatalOutcome s' i = fatalOutcome s i) (hnew : newPc s' i = newPc s i) (hpc : s'.pc = s.pc)
    (hst : s'.status = s.status) : t'.pc = t.pc ∧ t'.status = t.status := by
  have hout := hasOutcome_exec h
  have hout' := hasOutcome_exec h'
  rw [hfatal, hst] at hout'
  refine ⟨?_, hout'.status_eq.trans hout.status_eq.symm⟩
  rcases hout with ⟨r, hr, rfl⟩ | ⟨hnone, -⟩
  · rcases hout' with ⟨r', -, rfl⟩ | ⟨hnone, -⟩
    · exact hpc
    · rw [hr] at hnone; cases hnone
  · rw [pc_of_exec h hnone, pc_of_exec h' (hfatal.trans hnone), hnew]

/-- Settles O48: outside BRANCH, LOAD and STORE the fatal outcome is the row's, and the new pc one of pc and the
parameters. -/
theorem pcIndependentOfRegisters : Obligations.PcIndependentOfRegisters := by
  intro s t u regs w hfetch hop hstep hstep'
  simp only [List.mem_cons, List.not_mem_nil, or_false, not_or] at hop
  obtain ⟨hbranch, hload, hstore⟩ := hop
  have hfetch' : ({ s with regs := regs } : State).fetch = some w := hfetch
  have hfatal := fatalOutcome_decode_of_not_access hload hstore
  exact pc_status_congr (exec_of_step hfetch hstep) (exec_of_step hfetch' hstep')
    ((hfatal _).trans (hfatal _).symm) (newPc_decode_congr hbranch rfl rfl) rfl rfl

/-- Settles O36: fetch, status and every operation of exec ignore the counter, and the count commutes with it. -/
theorem cyclesInfluenceNothing : Obligations.CyclesInfluenceNothing := by
  intro s t k hstep
  obtain ⟨hs, ⟨hnone, rfl⟩ | ⟨w, hfetch, hexec⟩⟩ := step_cases hstep
  · have hs' : NotFatal (s.addCycles k) := hs
    exact (step_eq_fetchAndExecute hs').trans (fetchAndExecute_of_fetch_eq_none hnone)
  · have hs' : NotFatal (s.addCycles k) := hs
    have hbegin : (s.addCycles k).beginExecute = s.beginExecute.addCycles k := by
      simp only [State.addCycles, State.beginExecute, Nat.add_right_comm]
    calc step (s.addCycles k) = exec (decode w) (s.addCycles k).beginExecute :=
          (step_eq_fetchAndExecute hs').trans (fetchAndExecute_of_fetch_eq_some hfetch)
      _ = .next (t.addCycles k) := by rw [hbegin]; exact exec_addCycles hexec k

end Sys2Proof.Claims
end

section
/-! Runs of several operations: the repeated halt, SRL and SRA that stay at their word, the jump to itself, and the
ways a run ends (44_alu_register.md R148, 45_step_halt_invalid.md R155, 70_reset_and_hazards.md R184, R186). -/

namespace Sys2Proof.Machine

/-- Clearing bit 0 keeps the word index (20_memory.md R41, R42). -/
theorem clearBit0_div_four (t : Word) : (clearBit0 t).toNat / 4 = t.toNat / 4 := by
  have hbits : clearBit0 t >>> 2 = t >>> 2 := by
    apply BitVec.eq_of_getLsbD_eq
    intro i hi
    simp only [BitVec.getLsbD_ushiftRight, getLsbD_clearBit0]
    simp
  simpa [Nat.shiftRight_eq_div_pow] using congrArg BitVec.toNat hbits

/-- The fetched word depends on the word index of pc, memory and parameters only. -/
theorem fetch_congr_of_div_four {s t : State} (hpc : t.pc.toNat / 4 = s.pc.toNat / 4) (hmem : t.mem = s.mem)
    (hparams : t.params = s.params) : t.fetch = s.fetch := by
  unfold State.fetch State.fetchIndex
  rw [hpc, hmem, hparams]

/-! The end of a run (R186). -/

/-- Operation k ends the run, well or badly. -/
def EndsAt (ops : Nat → HostOp) (s : State) (k : Nat) : Prop := HaltsAt ops s k ∨ ∃ r, FailsAt ops s k r

section
variable {ops : Nat → HostOp} {s : State} {k j : Nat} {r : FatalReason}

theorem EndsWellAt.endsAt (h : EndsWellAt ops s k) : EndsAt ops s k := .inl h.2

theorem EndsBadlyAt.endsAt (h : EndsBadlyAt ops s k r) : EndsAt ops s k := .inr ⟨r, h.2⟩

theorem notEndedBefore_iff : NotEndedBefore ops s k ↔ ∀ i, i < k → ¬ EndsAt ops s i := by
  simp only [NotEndedBefore, EndsAt, not_or, not_exists]

/-- The operation that ends the run first is unique. -/
theorem eq_of_first_end (hk : NotEndedBefore ops s k) (hk' : EndsAt ops s k) (hj : NotEndedBefore ops s j)
    (hj' : EndsAt ops s j) : k = j := by
  rw [notEndedBefore_iff] at hk hj
  rcases lt_trichotomy k j with hlt | heq | hlt
  · exact absurd hk' (hj k hlt)
  · exact heq
  · exact absurd hj' (hk j hlt)

/-- One operation leaves one status. -/
theorem not_haltsAt_and_failsAt (hk : HaltsAt ops s k) (hk' : FailsAt ops s k r) : False := by
  obtain ⟨-, -, hhalted⟩ := hk
  obtain ⟨-, hfatal⟩ := hk'
  cases hhalted.unique hfatal

theorem RunsForever.not_endsAt (h : RunsForever ops s) (k : Nat) : ¬ EndsAt ops s k :=
  notEndedBefore_iff.1 (h (k + 1)).1 k (Nat.lt_succ_self k)

/-- An operation on a block that is not Fatal has a next state. -/
theorem operate_next {t : State} (op : HostOp) (ht : ∀ r, t.status ≠ .fatal r) : ∃ u, t.operate op = .next u := by
  cases op with
  | step => exact step_next ht
  | load off ws => exact load_next off ws ht

/-- Where no operation ends the run, every one has a next state. -/
theorem runsForever_of_not_endsAt (hs : ∀ r, s.status ≠ .fatal r) (h : ∀ k, ¬ EndsAt ops s k) :
    RunsForever ops s := by
  refine fun k => ⟨notEndedBefore_iff.2 fun i _ => h i, ?_⟩
  induction k with
  | zero => exact ⟨s, rfl⟩
  | succ k ih =>
    obtain ⟨t, ht⟩ := ih
    have hnot : ∀ r, t.status ≠ .fatal r := fun r hr => by
      cases k with
      | zero => cases ht; exact hs r hr
      | succ k => exact h (k + 1) (.inr ⟨r, Nat.succ_pos k, t, ht, hr⟩)
    rw [runOps_succ_of_next ht]
    exact operate_next (ops k) hnot

/-- A run in which every status after an operation is Running is infinite. -/
theorem runsForever_of_running (h : ∀ k, ∃ t, runOps ops k s = .next t ∧ (1 ≤ k → t.status = .running)) :
    RunsForever ops s := by
  have hrunning : ∀ {k st}, 1 ≤ k → StatusAfter ops s k st → st = .running := fun {k} _ hk hst => by
    obtain ⟨t, ht, hrun⟩ := h k
    exact hst.unique ⟨t, ht, hrun hk⟩
  have hnone : ∀ k, ¬ EndsAt ops s k := by
    rintro k (⟨hk, -, hst⟩ | ⟨r, hk, hst⟩)
    · cases hrunning hk hst
    · cases hrunning hk hst
  refine fun k => ⟨notEndedBefore_iff.2 fun i _ => hnone i, ?_⟩
  obtain ⟨t, ht, -⟩ := h k
  exact ⟨t, ht⟩

end

end Sys2Proof.Machine

namespace Sys2Proof.Claims
open Sys2Proof.Machine

/-- Settles O37: a step at the zero word changes status and count only, so the next step is at the zero word. -/
theorem haltRepeats : Obligations.HaltRepeats := by
  intro s hs hfetch n
  obtain ⟨-, -, hstep⟩ := haltOnlySetsStatus
  induction n generalizing s with
  | zero => exact (runFor_succ_of_next 0 (hstep s hs hfetch)).trans (runFor_zero _)
  | succ n ih =>
    have hhalted : NotFatal { s with status := .halted, cycles := s.cycles + 1 } := nofun
    rw [runFor_succ_of_next _ (hstep s hs hfetch), ih _ hhalted hfetch]
    simp only [Nat.add_assoc, Nat.add_comm 1]

/-! SRL and SRA with SRX_ADVANCES_PC false. -/

/-- SRL and SRA write one function of their sources (R149, R150). -/
theorem exec_of_isShiftRight {i : Instr} {rd rs1 rs2 : RegIdx} (h : IsShiftRight i rd rs1 rs2) :
    ∃ f : Word → Word → Word, ∀ s,
      exec i s = .next (s.writeShiftRight rd (f (s.readReg rs1) (s.readReg rs2))) := by
  rcases h with rfl | ⟨f7, rfl⟩
  · exact ⟨fun a b => a >>> shiftAmount b, exec_srl rd rs1 rs2⟩
  · exact ⟨fun a b => a.sshiftRight (shiftAmount b), exec_sra rd rs1 rs2 f7⟩

/-- The block has made n steps from s to t at one word, without leaving it, and rd alone may differ. -/
structure StaysAtWord (rd : RegIdx) (n : Nat) (s t : State) : Prop where
  pc : t.pc = s.pc
  status : t.status = .running
  mem : t.mem = s.mem
  params : t.params = s.params
  cycles : t.cycles = s.cycles + n
  readReg : ∀ r, r ≠ rd → t.readReg r = s.readReg r

theorem StaysAtWord.trans {rd : RegIdx} {n m : Nat} {s t u : State} (h : StaysAtWord rd n s t)
    (h' : StaysAtWord rd m t u) : StaysAtWord rd (n + m) s u where
  pc := h'.pc.trans h.pc
  status := h'.status
  mem := h'.mem.trans h.mem
  params := h'.params.trans h.params
  cycles := by rw [h'.cycles, h.cycles, Nat.add_assoc]
  readReg r hr := (h'.readReg r hr).trans (h.readReg r hr)

/-- One such step: it writes rd and counts. -/
theorem staysAtWord_writeShiftRight {s : State} (hsrx : s.params.srxAdvancesPc = false) (rd : RegIdx) (v : Word) :
    StaysAtWord rd 1 s (s.beginExecute.writeShiftRight rd v) where
  pc := by simp [hsrx]
  status := by simp
  mem := by simp
  params := by simp
  cycles := by simp
  readReg r hr := by rw [readReg_writeShiftRight, if_neg fun ⟨_, h⟩ => hr h, readReg_beginExecute]

/-- n + 1 steps at an SRL or SRA of value f stay at its word, and when rd is no source they leave the registers as the
first step does. -/
theorem runFor_of_shiftRight {s : State} {w : Word} {rd rs1 rs2 : RegIdx} {f : Word → Word → Word}
    (hs : NotFatal s) (hfetch : s.fetch = some w) (hsrx : s.params.srxAdvancesPc = false)
    (hf : ∀ s, exec (decode w) s = .next (s.writeShiftRight rd (f (s.readReg rs1) (s.readReg rs2)))) (n : Nat) :
    ∃ t, runFor (n + 1) s = .next t ∧ StaysAtWord rd (n + 1) s t ∧
      (rd ≠ rs1 → rd ≠ rs2 → ∃ u, step s = .next u ∧ SameRegs u t) := by
  have hstep : ∀ t : State, NotFatal t → t.fetch = some w →
      step t = .next (t.beginExecute.writeShiftRight rd (f (t.readReg rs1) (t.readReg rs2))) := fun t ht hw =>
    (step_eq_fetchAndExecute ht).trans ((fetchAndExecute_of_fetch_eq_some hw).trans (hf _))
  induction n with
  | zero =>
    exact ⟨_, runFor_succ_of_next 0 (hstep s hs hfetch), staysAtWord_writeShiftRight hsrx rd _,
      fun _ _ => ⟨_, hstep s hs hfetch, fun _ => rfl⟩⟩
  | succ n ih =>
    obtain ⟨t, hrun, hstays, -⟩ := ih
    have ht : NotFatal t := fun r hr => by rw [hstays.status] at hr; cases hr
    have htstep := hstep t ht ((fetch_congr hstays.pc hstays.mem hstays.params).trans hfetch)
    refine ⟨_, runFor_snoc hrun htstep, hstays.trans (staysAtWord_writeShiftRight ?srx rd _), fun h1 h2 => ?same⟩
    case srx => rw [hstays.params]; exact hsrx
    case same =>
      refine ⟨_, hstep s hs hfetch, fun r => ?_⟩
      rw [readReg_writeShiftRight, readReg_writeShiftRight, hstays.readReg rs1 h1.symm, hstays.readReg rs2 h2.symm]
      split
      next => rfl
      next hr =>
        by_cases hrd : r = rd
        · have h0 : r = 0 := by
            by_contra h0
            exact hr ⟨hrd ▸ h0, hrd⟩
          subst h0; rfl
        · exact hstays.readReg r hrd

/-- Settles O25: each step leaves pc, memory and parameters, so the same word is fetched again, and its sources hold
what they held unless rd is one. -/
theorem shiftRightNeverLeavesItsWord : Obligations.ShiftRightNeverLeavesItsWord := by
  intro s w rd rs1 rs2 hs hfetch hshift hsrx n
  obtain ⟨f, hf⟩ := exec_of_isShiftRight hshift
  obtain ⟨t, hrun, hstays, hsame⟩ := runFor_of_shiftRight hs hfetch hsrx hf n
  exact ⟨t, hrun, hstays.pc, hstays.status, hstays.mem, hstays.cycles, hstays.readReg, hsame⟩

/-! The jump to itself. -/

/-- A step at a self-jump leaves the block Running at the same word index, in the same memory. -/
theorem step_selfJump {s : State} {rd : RegIdx} (hs : NotFatal s) (hfetch : s.fetch = some (encode (.jal rd 0#21))) :
    ∃ t, step s = .next t ∧ t.status = .running ∧ t.fetch = s.fetch := by
  have hdecode : decode (encode (.jal rd 0#21)) = .jal rd 0#21 := decode_encode rfl
  have hstep : step s = .next (s.beginExecute.linkAndJump rd (s.pc + sext21 0#21)) := by
    rw [step_eq_fetchAndExecute hs, fetchAndExecute_of_fetch_eq_some hfetch, hdecode, exec_jal]
    rfl
  have hzero : s.pc + sext21 0#21 = s.pc := BitVec.add_zero _
  refine ⟨_, hstep, linkAndJump_status _ rd _, ?_⟩
  refine fetch_congr_of_div_four ?_ (linkAndJump_mem _ rd _) (linkAndJump_params _ rd _)
  rw [linkAndJump_pc, clearBit0_div_four, hzero]

/-- Settles O49: every step finds the self-jump at its word index and leaves Running. -/
theorem selfJumpRunsForever : Obligations.SelfJumpRunsForever := by
  intro s rd hs hfetch
  have hrun : ∀ k, ∃ t, runOps stepsOnly k s = .next t ∧ NotFatal t ∧ t.fetch = s.fetch ∧
      (1 ≤ k → t.status = .running) := by
    intro k
    induction k with
    | zero => exact ⟨s, rfl, hs, rfl, fun h => absurd h (by decide)⟩
    | succ k ih =>
      obtain ⟨t, ht, hnot, htfetch, -⟩ := ih
      obtain ⟨u, hu, hrunning, hufetch⟩ := step_selfJump hnot (htfetch.trans hfetch)
      have hunot : NotFatal u := fun r hr => by rw [hrunning] at hr; cases hr
      exact ⟨u, (runOps_succ_of_next ht).trans hu, hunot, hufetch.trans htfetch, fun _ => hrunning⟩
  refine runsForever_of_running fun k => ?_
  obtain ⟨t, ht, -, -, hrunning⟩ := hrun k
  exact ⟨t, ht, hrunning⟩

/-- Settles O50: the first operation that ends the run, if any, decides how; its status is one status. -/
theorem runEndsInExactlyOneWay : Obligations.RunEndsInExactlyOneWay := by
  intro ops s hs
  refine ⟨?some, fun k j hk hj => ?well, fun k j r q hk hj => ?badly, fun k j r h => ?both, fun h => ?never⟩
  case some =>
    by_cases hend : ∃ k, EndsAt ops s k
    · classical
      have hfirst : NotEndedBefore ops s (Nat.find hend) := notEndedBefore_iff.2 fun i hi => Nat.find_min hend hi
      rcases Nat.find_spec hend with hwell | ⟨r, hbadly⟩
      · exact .inl ⟨_, hfirst, hwell⟩
      · exact .inr (.inl ⟨_, r, hfirst, hbadly⟩)
    · exact .inr (.inr (runsForever_of_not_endsAt hs (not_exists.1 hend)))
  case well => exact eq_of_first_end hk.1 hk.endsAt hj.1 hj.endsAt
  case badly =>
    obtain rfl : k = j := eq_of_first_end hk.1 hk.endsAt hj.1 hj.endsAt
    obtain ⟨-, -, hr⟩ := hk
    obtain ⟨-, -, hq⟩ := hj
    have hsame := hr.unique hq
    cases hsame
    exact ⟨rfl, rfl⟩
  case both =>
    obtain ⟨hk, hj⟩ := h
    obtain rfl : k = j := eq_of_first_end hk.1 hk.endsAt hj.1 hj.endsAt
    exact not_haltsAt_and_failsAt hk.2 hj.2
  case never => exact ⟨fun k hk => h.not_endsAt k hk.endsAt, fun k r hk => h.not_endsAt k hk.endsAt⟩

end Sys2Proof.Claims
end

section
/-! The state that construction, a load and a placed word give the next step (10_state.md R35, 45_step_halt_invalid.md
R155, 70_reset_and_hazards.md R180 to R184, R187). -/

namespace Sys2Proof.Claims
open Sys2Proof.Machine

/-- Settles O38: the load writes the word at the fetch index alone, and the next step fetches it. -/
theorem loadResumesHaltedBlock : Obligations.LoadResumesHaltedBlock := by
  intro s w hhalted hin
  have hs : NotFatal s := fun r hr => by rw [hhalted] at hr; cases hr
  have hload := load_of_le (off := s.pc.toNat / 4) (ws := [w]) hs hin
  refine ⟨_, hload, rfl, fun _ => rfl, ⟨rfl, rfl, rfl⟩, ?_⟩
  obtain ⟨hstep, -⟩ := stepRunsDecodedInstruction
  exact hstep _ w hs (fetch_eq_some_iff.2 ⟨hin, Memory.read_write_same s.mem _ w⟩)

/-- Settles O31: the placed word is the fetched one, and it decodes to the instruction encoded in it. -/
theorem placedWordRunsNext : Obligations.PlacedWordRunsNext := by
  intro s i hs hin hi
  have hplaced : s.withFetchWord 32 (encode i).toNat = { s with mem := s.mem.write (s.pc.toNat / 4) (encode i) } := by
    rw [State.withFetchWord, BitVec.ofNat_toNat, BitVec.setWidth_eq]
    exact if_pos hin
  have hfetch : (s.withFetchWord 32 (encode i).toNat).fetch = some (encode i) := by
    rw [hplaced]
    exact fetch_eq_some_iff.2 ⟨hin, Memory.read_write_same s.mem _ _⟩
  have hnot : NotFatal (s.withFetchWord 32 (encode i).toNat) := by rw [hplaced]; exact hs
  obtain ⟨hstep, -⟩ := stepRunsDecodedInstruction
  rw [hstep _ _ hnot hfetch, decode_encode hi, hplaced]
  exact ⟨_, rfl, fun _ => rfl, rfl, rfl, rfl, fun k hk => Memory.read_write_other s.mem _ hk⟩

/-- Settles O51: x0 and x2 are set over INIT_REGS, and the words of INIT_MEM below the capacity are written in
order. -/
theorem constructionSetsEveryField : Obligations.ConstructionSetsEveryField := by
  intro p r
  refine ⟨rfl, rfl, rfl, rfl, rfl, ?sp, fun i h0 h2 => ?regs, fun k hk => ?mem⟩
  case sp => simp [State.construct, State.readReg]
  case regs =>
    have h0' : 0 ≠ i.val := fun h => h0 (Fin.ext h.symm)
    have h2' : 2 ≠ i.val := fun h => h2 (Fin.ext h.symm)
    simp [State.construct, State.readReg, h0, h0', h2']
  case mem =>
    have htake : (r.initMem.take p.memWords)[k]? = r.initMem[k]? := by rw [List.getElem?_take, if_pos hk]
    rw [← htake]
    by_cases hlen : k < (r.initMem.take p.memWords).length
    · rw [← Memory.read_writeWords_add [] 0 hlen, Nat.zero_add]; rfl
    · have hout : 0 + (r.initMem.take p.memWords).length ≤ k := by omega
      rw [List.getElem?_eq_none (Nat.le_of_not_lt hlen)]
      exact Memory.read_writeWords_of_not_mem [] (.inr hout)

/-- Settles O52: every field of the construction at the defaults, x0 and the registers of INIT_REGS by cases. -/
theorem resetAtDefaults : Obligations.ResetAtDefaults := by
  refine ⟨rfl, rfl, by decide, by decide, fun k => rfl, rfl, rfl⟩

end Sys2Proof.Claims
end

section
/-! The assembler's words: fields placed by shifts and or are the engine's layouts, a branch is laid out as a store,
and the hazard pass by its three cases (30_encoding.md R84 to R93). -/

namespace Sys2Proof.Machine

/-! Placed fields. -/

theorem getLsbD_asmPlace {k : Nat} (x : BitVec k) (n i : Nat) :
    (asmPlace x n).getLsbD i = (decide (i < 32) && !decide (i < n) && x.getLsbD (i - n)) := by
  unfold asmPlace
  rw [BitVec.getLsbD_shiftLeft, BitVec.getLsbD_setWidth]
  by_cases hi : i < 32
  · have hsub : i - n < 32 := by omega
    simp [hi, hsub]
  · simp [hi]

/-- An append placed at n: its right part at n, its left part above it. -/
theorem asmPlace_append {a b : Nat} (x : BitVec a) (y : BitVec b) (n : Nat) :
    asmPlace (x ++ y) n = asmPlace x (b + n) ||| asmPlace y n := by
  apply BitVec.eq_of_getLsbD_eq
  intro i hi
  rw [BitVec.getLsbD_or, getLsbD_asmPlace, getLsbD_asmPlace, getLsbD_asmPlace, BitVec.getLsbD_append]
  by_cases hn : i < n
  · have hbn : i < b + n := by omega
    simp [hn, hbn]
  · by_cases hb : i - n < b
    · have hbn : i < b + n := by omega
      simp [hn, hb, hbn]
    · have hbn : ¬ i < b + n := by omega
      have hsub : i - n - b = i - (b + n) := by omega
      have hy : y.getLsbD (i - n) = false := BitVec.getLsbD_of_ge y _ (Nat.le_of_not_lt hb)
      simp [hn, hb, hbn, hsub, hy]

theorem asmPlace_zero (w : Word) : asmPlace w 0 = w := by
  simp [asmPlace]

/-- Only the low 32 - n bits of a field placed at n are in the word. -/
theorem asmPlace_setWidth {k l n : Nat} (x : BitVec k) (h : 32 ≤ l + n) :
    asmPlace (x.setWidth l) n = asmPlace x n := by
  apply BitVec.eq_of_getLsbD_eq
  intro i hi
  rw [getLsbD_asmPlace, getLsbD_asmPlace, BitVec.getLsbD_setWidth]
  by_cases hn : i < n
  · simp [hn]
  · have hl : i - n < l := by omega
    simp [hl]

/-- A layout of six fields, placed field by field (R63, R87). -/
theorem asmPlace_six {a b c d e f : Nat} (u : BitVec a) (v : BitVec b) (w : BitVec c) (x : BitVec d) (y : BitVec e)
    (z : BitVec f) (n : Nat) :
    asmPlace (u ++ v ++ w ++ x ++ y ++ z) n =
      asmPlace u (b + (c + (d + (e + (f + n))))) ||| asmPlace v (c + (d + (e + (f + n)))) |||
        asmPlace w (d + (e + (f + n))) ||| asmPlace x (e + (f + n)) ||| asmPlace y (f + n) ||| asmPlace z n := by
  simp only [asmPlace_append]

theorem asmPackR_eq_packR (f7 : BitVec 7) (f3 : BitVec 3) (rd rs1 rs2 : RegIdx) :
    asmPackR f7 f3 rd rs1 rs2 = packR f7 rs2 rs1 f3 rd 0x33#7 :=
  (asmPlace_six f7 (regBits rs2) (regBits rs1) f3 (regBits rd) 0x33#7 0).symm.trans (asmPlace_zero _)

/-- The low bits of an immediate do not depend on the width it is taken at. -/
theorem toNat_ofInt_mod (imm : Int) {k n : Nat} (h : k ≤ n) :
    (BitVec.ofInt n imm).toNat % 2 ^ k = (imm % 2 ^ k).toNat := by
  have hdvd : (2 : Int) ^ k ∣ 2 ^ n := pow_dvd_pow 2 h
  have hn : (0 : Int) ≤ imm % 2 ^ n := Int.emod_nonneg _ (by positivity)
  have hk : (0 : Int) ≤ imm % 2 ^ k := Int.emod_nonneg _ (by positivity)
  rw [BitVec.toNat_ofInt]
  apply Int.ofNat_inj.1
  push_cast
  rw [Int.toNat_of_nonneg hn, Int.toNat_of_nonneg hk, Int.emod_emod_of_dvd _ hdvd]

/-- The shift drops every bit of the immediate but the low 12 (R88). -/
theorem asmPlace_ofInt_20 (imm : Int) : asmPlace (BitVec.ofInt 32 imm) 20 = asmPlace (BitVec.ofInt 12 imm) 20 := by
  have hlow : BitVec.ofInt 12 imm = (BitVec.ofInt 32 imm).setWidth 12 := by
    apply BitVec.eq_of_toNat_eq
    rw [BitVec.toNat_setWidth, toNat_ofInt_mod imm (by decide), BitVec.toNat_ofInt]
    rfl
  rw [hlow, asmPlace_setWidth _ (by decide)]

theorem asmPackI_eq_packI (op : BitVec 7) (f3 : BitVec 3) (rd rs1 : RegIdx) (imm : Int) :
    asmPackI op f3 rd rs1 imm = packI (BitVec.ofInt 12 imm) rs1 f3 rd op := by
  rw [asmPackI, asmPlace_ofInt_20, ← asmPlace_zero (packI _ _ _ _ _), packI]
  simp only [asmPlace_append]

/-- A mask of the low k bits leaves the immediate mod 2^k. -/
theorem toNat_ofInt_and_mask (imm : Int) {k : Nat} (h : k ≤ 32) :
    (BitVec.ofInt 32 imm &&& BitVec.ofNat 32 (2 ^ k - 1)).toNat = (imm % 2 ^ k).toNat := by
  have hmask : (2 ^ k - 1) % 2 ^ 32 = 2 ^ k - 1 :=
    Nat.mod_eq_of_lt (lt_of_lt_of_le (Nat.sub_lt (by positivity) one_pos) (Nat.pow_le_pow_right two_pos h))
  rw [BitVec.toNat_and, BitVec.toNat_ofNat, hmask, Nat.and_two_pow_sub_one_eq_mod, toNat_ofInt_mod imm h]

/-! The masked parts of the S-type split are the two fields of the low 12 bits (R89). -/

theorem split_lower (imm : Int) :
    BitVec.ofInt 32 imm &&& 0x1F#32 = ((BitVec.ofInt 12 imm).extractLsb' 0 5).setWidth 32 := by
  apply BitVec.eq_of_toNat_eq
  refine (toNat_ofInt_and_mask imm (k := 5) (by decide)).trans ?_
  rw [BitVec.toNat_setWidth, toNat_field, BitVec.toNat_ofInt]
  omega

theorem split_upper (imm : Int) :
    BitVec.ofInt 32 (imm / 32) &&& 0x7F#32 = ((BitVec.ofInt 12 imm).extractLsb' 5 7).setWidth 32 := by
  apply BitVec.eq_of_toNat_eq
  refine (toNat_ofInt_and_mask (imm / 32) (k := 7) (by decide)).trans ?_
  rw [BitVec.toNat_setWidth, toNat_field, BitVec.toNat_ofInt]
  omega

theorem asmPackSplit_eq_packS (op : BitVec 7) (f3 : BitVec 3) (rs1 rs2 : RegIdx) (imm : Int) :
    asmPackSplit op f3 rs1 rs2 imm = packS (BitVec.ofInt 12 imm) rs2 rs1 f3 op := by
  rw [asmPackSplit, split_upper, split_lower, asmPlace_setWidth _ (by decide), asmPlace_setWidth _ (by decide)]
  exact (asmPlace_six ((BitVec.ofInt 12 imm).extractLsb' 5 7) (regBits rs2) (regBits rs1) f3
    ((BitVec.ofInt 12 imm).extractLsb' 0 5) op 0).symm.trans (asmPlace_zero _)

end Sys2Proof.Machine

namespace Sys2Proof.Claims
open Sys2Proof.Machine

/-- Settles O55: each packing places the fields of its layout. -/
theorem assemblerPacksEngineLayouts : Obligations.AssemblerPacksEngineLayouts := by
  refine ⟨fun f7 f3 rd rs1 rs2 => asmPackR_eq_packR f7 f3 rd rs1 rs2, fun op f3 rd rs1 imm => ?iType,
    fun f3 rs1 rs2 imm => ?sType⟩
  case iType =>
    have hword := asmPackI_eq_packI op f3 rd rs1 imm
    dsimp only [AsmInstr.encode]
    rw [hword, immI_packI, sext12_eq_extended]
    exact ⟨rfl, rfl⟩
  case sType =>
    have hword := asmPackSplit_eq_packS 0x23#7 f3 rs1 rs2 imm
    dsimp only [AsmInstr.encode]
    rw [hword, immS_packS, toInt_sext12]
    exact ⟨rfl, fun hlo hhi => BitVec.toInt_ofInt_eq_self (by decide) hlo (Int.lt_of_le_of_lt hhi (by decide))⟩

/-- Of the S-type layout of an offset a, w[31:25] holds bits 11:5 (R89). -/
theorem funct7_packS_ofInt (rs2 rs1 : RegIdx) (f3 : BitVec 3) (op : BitVec 7) (a : Int) :
    ((funct7 (packS (BitVec.ofInt 12 a) rs2 rs1 f3 op)).toNat : Int) = a / 32 % 128 := by
  rw [funct7, packS_bits25, toNat_field, BitVec.toNat_ofInt]
  omega

/-- Of the S-type layout of an offset a, w[11:7] holds bits 4:0 (R89). -/
theorem rdField_packS_ofInt (rs2 rs1 : RegIdx) (f3 : BitVec 3) (op : BitVec 7) (a : Int) :
    ((rdField (packS (BitVec.ofInt 12 a) rs2 rs1 f3 op)).val : Int) = a % 32 := by
  rw [rdField, packS_bits7, BitVec.val_toFin, toNat_field, BitVec.toNat_ofInt]
  omega

/-- The branch offset in terms of the fields at w[31:25] and w[11:7] (30_encoding.md R68). -/
theorem toInt_immB_fields (w : Word) : (immB w).toInt =
    -((funct7 w).toNat / 64 * 4096) + (rdField w).val % 2 * 2048 + (funct7 w).toNat % 64 * 32 +
      (rdField w).val / 2 % 16 * 2 := by
  have htop : w.toInt / 2 ^ 31 = -((funct7 w).toNat / 64) := by
    rw [BitVec.toInt_eq_toNat_cond, funct7_toNat]
    omega
  rw [toInt_immB, htop, funct7_toNat, rdField_val]
  omega

/-- Settles O56: the branch word has the S-type layout of the offset, and the engine reads the B-type bits of it. -/
theorem assemblerBranchOffsetMismatch : Obligations.AssemblerBranchOffsetMismatch := by
  intro f3 rs1 rs2 a hlo hhi
  have hword := asmPackSplit_eq_packS 0x63#7 f3 rs1 rs2 a
  dsimp only [AsmInstr.encode]
  rw [hword, opcode_packS, funct3_packS, rs1Field_packS, rs2Field_packS, toInt_sext13, toInt_immB_fields]
  have hupper := funct7_packS_ofInt rs2 rs1 f3 0x63#7 a
  have hlower := rdField_packS_ofInt rs2 rs1 f3 0x63#7 a
  refine ⟨rfl, rfl, rfl, rfl, hupper, hlower, ?_⟩
  omega

/-- An instruction reads the register of prev as the list of its sources says. -/
theorem reads_iff (c : AsmInstr) (p : Option RegIdx) : c.reads p = true ↔ Reads c p := by
  cases p <;> simp [AsmInstr.reads, Reads]

/-- Settles O57: the padding by what the instruction reads, at the head of the list, for every prev and prev2. -/
theorem hazardPassPadsDependencies : Obligations.HazardPassPadsDependencies := by
  refine ⟨decode_zero, fun x0 prev prev2 => ⟨rfl, fun c cs => ?_⟩⟩
  simp only [← reads_iff]
  refine ⟨fun hprev => ?two, fun hprev hprev2 hdest => ?one, fun hprev hnone => ?zero⟩
  case two => simp [hazardPass, asmPadding, hprev, asmNoOp]
  case one =>
    have hsome : (c.dest x0).isSome = true := Option.isSome_iff_ne_none.2 hdest
    simp [hazardPass, asmPadding, hprev, hprev2, hsome, asmNoOp]
  case zero =>
    have hpad : ((c.dest x0).isSome && c.reads prev2) = false := by
      rcases hnone with hprev2 | hdest
      · simp [hprev2]
      · simp [hdest]
    simp [hazardPass, asmPadding, hprev, hpad]

end Sys2Proof.Claims
end
